-- ==== Sys2Proof/Word.lean ====
section
/-! DEFINITION. The 16-bit word, the byte and the two readings of a word (spec 00_scope.md R5). -/

namespace Sys2Proof

/-- The contents of a register or a memory cell: a 16-bit pattern, bit 0 the least significant (R5). -/
abbrev Word := BitVec 16

/-- A character code 0..255 of the input queue or the output log (R21, R22). -/
abbrev Byte := BitVec 8

/-- The unsigned reading of a word, 0..65535 (R5). -/
abbrev uval (x : Word) : Nat := x.toNat

/-- The two's-complement signed reading of a word, -32768..32767 (R5). -/
abbrev sval (x : Word) : Int := x.toInt

end Sys2Proof
end

