-- ==== Sys2Proof/Syntax.lean ====
section
/-! DEFINITION. The instructions, one constructor for each row of spec/opcode_table.json, and the conditions of
60_exceptions.md R180. -/

namespace Sys2Proof

/-- The general register R0 to R7 that a 3-bit field names by its unsigned value (R10, R55). -/
abbrev Reg := Fin 8

/-- The link register R7 (R10, R109). -/
abbrev Reg.link : Reg := 7

/-- One instruction term (R59, R60). Operand fields keep their encoded width; the bits that the decoder ignores (R61)
are not part of the term. -/
inductive Instr where
  /-- BR: mask bits n, z, p and PCoffset9 (R110). -/
  | br (n z p : Bool) (off : BitVec 9)
  /-- ADD, register form (R100). -/
  | addReg (dr sr1 sr2 : Reg)
  /-- ADD, immediate form (R101). -/
  | addImm (dr sr1 : Reg) (imm : BitVec 5)
  /-- LD (R120). -/
  | ld (dr : Reg) (off : BitVec 9)
  /-- ST (R124). -/
  | st (sr : Reg) (off : BitVec 9)
  /-- JSR (R112). -/
  | jsr (off : BitVec 11)
  /-- JSRR (R113). -/
  | jsrr (base : Reg)
  /-- AND, register form (R102). -/
  | andReg (dr sr1 sr2 : Reg)
  /-- AND, immediate form (R103). -/
  | andImm (dr sr1 : Reg) (imm : BitVec 5)
  /-- LDR (R122). -/
  | ldr (dr base : Reg) (off : BitVec 6)
  /-- STR (R126). -/
  | str (sr base : Reg) (off : BitVec 6)
  /-- Reserved opcode 0x8 (R170). -/
  | reserved8
  /-- NOT (R104). -/
  | notReg (dr sr : Reg)
  /-- LDI (R121). -/
  | ldi (dr : Reg) (off : BitVec 9)
  /-- STI (R125). -/
  | sti (sr : Reg) (off : BitVec 9)
  /-- JMP; RET is JMP R7 (R111). -/
  | jmp (base : Reg)
  /-- Reserved opcode 0xD (R171). -/
  | reservedD
  /-- LEA (R123). -/
  | lea (dr : Reg) (off : BitVec 9)
  /-- TRAP x20, GETC (R141). -/
  | trapGetc
  /-- TRAP x21, OUT (R142). -/
  | trapOut
  /-- TRAP x22, PUTS (R143). -/
  | trapPuts
  /-- TRAP x23, IN (R144). -/
  | trapIn
  /-- TRAP x24, PUTSP (R145). -/
  | trapPutsp
  /-- TRAP x25, HALT (R146). -/
  | trapHalt
  /-- TRAP with a vector that names no service (R147). -/
  | trap (vec : BitVec 8)
  deriving DecidableEq, Repr

/-- The conditions of R180, each with the raw value it carries. -/
inductive Condition where
  /-- A reserved opcode, or `none` for a fetch from an address with no cell (R181). -/
  | badOpcode (opcode : Option (BitVec 4))
  /-- TRAP with an undefined vector (R182). -/
  | badTrap (vector : BitVec 8)
  /-- An encoder operand out of range; no step of the core raises it (R183). -/
  | fieldOverflow (width : Nat) (value : Int)
  /-- A data access at an address with no cell (R184). -/
  | unmappedAccess (addr : Word)
  /-- The step cap (R185). -/
  | stepLimit
  /-- A host abort (R186). -/
  | cancelled
  deriving DecidableEq, Repr

end Sys2Proof
end

