-- ==== Sys2Proof/WellFormed.lean ====
section
/-! DEFINITION. The instruction terms that a word can decode to. The widths of the operand types settle every range
check but one: `trap` stands for the vectors that name no service (opcode_table.json, note of row TRAP). -/

namespace Sys2Proof

/-- The six defined trap vectors 0x20 to 0x25 (R63). -/
def isServiceVector (v : BitVec 8) : Bool :=
  0x20 ≤ v.toNat && v.toNat ≤ 0x25

/-- The term is the decoding of some word: a `trap` carries an undefined vector (R147). -/
def Instr.wellFormed : Instr → Bool
  | .br _ _ _ _ => true
  | .addReg _ _ _ => true
  | .addImm _ _ _ => true
  | .ld _ _ => true
  | .st _ _ => true
  | .jsr _ => true
  | .jsrr _ => true
  | .andReg _ _ _ => true
  | .andImm _ _ _ => true
  | .ldr _ _ _ => true
  | .str _ _ _ => true
  | .reserved8 => true
  | .notReg _ _ => true
  | .ldi _ _ => true
  | .sti _ _ => true
  | .jmp _ => true
  | .reservedD => true
  | .lea _ _ => true
  | .trapGetc => true
  | .trapOut => true
  | .trapPuts => true
  | .trapIn => true
  | .trapPutsp => true
  | .trapHalt => true
  | .trap v => !isServiceVector v

end Sys2Proof
end

