-- ==== Sys2Proof/Decode.lean ====
section
/-! DEFINITION. The decoder (30_encoding.md R50 to R64), then the codec and the encoder (R52 to R54, R65 to R86).
Every 16-bit word decodes: the two reserved opcodes and the undefined trap vectors decode to terms of their own, whose
meanings raise the condition (R62, R63). -/

namespace Sys2Proof

/-! ## Decoder -/

/-- The field of `n` bits of `w` whose lowest bit is bit `lo`. -/
def bits (w : Word) (lo n : Nat) : BitVec n :=
  w.extractLsb' lo n

/-- The 3-bit register field of `w` whose lowest bit is bit `lo` (R55). -/
def regField (w : Word) (lo : Nat) : Reg :=
  ⟨(bits w lo 3).toNat, (bits w lo 3).isLt⟩

/-- The opcode `w[15:12]` (R50). -/
def opcodeOf (w : Word) : BitVec 4 :=
  bits w 12 4

/-- The term of a TRAP word by its vector (R63, R140). -/
def decodeTrap (v : BitVec 8) : Instr :=
  match v.toNat with
  | 0x20 => .trapGetc
  | 0x21 => .trapOut
  | 0x22 => .trapPuts
  | 0x23 => .trapIn
  | 0x24 => .trapPutsp
  | 0x25 => .trapHalt
  | _ => .trap v

/-- The decoder, total on 16-bit words (R60). -/
def decode (w : Word) : Instr :=
  match (opcodeOf w).toNat with
  | 0x0 => .br w[11] w[10] w[9] (bits w 0 9)
  | 0x1 =>
    if w[5] then .addImm (regField w 9) (regField w 6) (bits w 0 5)
    else .addReg (regField w 9) (regField w 6) (regField w 0)
  | 0x2 => .ld (regField w 9) (bits w 0 9)
  | 0x3 => .st (regField w 9) (bits w 0 9)
  | 0x4 => if w[11] then .jsr (bits w 0 11) else .jsrr (regField w 6)
  | 0x5 =>
    if w[5] then .andImm (regField w 9) (regField w 6) (bits w 0 5)
    else .andReg (regField w 9) (regField w 6) (regField w 0)
  | 0x6 => .ldr (regField w 9) (regField w 6) (bits w 0 6)
  | 0x7 => .str (regField w 9) (regField w 6) (bits w 0 6)
  | 0x8 => .reserved8
  | 0x9 => .notReg (regField w 9) (regField w 6)
  | 0xA => .ldi (regField w 9) (bits w 0 9)
  | 0xB => .sti (regField w 9) (bits w 0 9)
  | 0xC => .jmp (regField w 6)
  | 0xD => .reservedD
  | 0xE => .lea (regField w 9) (bits w 0 9)
  | _ => decodeTrap (bits w 0 8)

/-- The instruction that the decoder reads from a word given by its low `nbits` bits, the bits above them zero. An
instruction is one 16-bit word (R50), so more than 16 bits are no instruction. -/
def decodeTableWord (nbits w : Nat) : Option Instr :=
  if nbits ≤ 16 then some (decode (BitVec.ofNat 16 (w % 2 ^ nbits))) else none

/-! ## Codec -/

/-- `packSigned(value, width)`: the width-bit two's-complement pattern, or FieldOverflow (R52). -/
def packSigned (value : Int) (width : Nat) : Except Condition Nat :=
  if width < 2 ∨ 64 < width then .error (.fieldOverflow width value)
  else if value < -2 ^ (width - 1) ∨ 2 ^ (width - 1) - 1 < value then .error (.fieldOverflow width value)
  else .ok (value % 2 ^ width).toNat

/-- `unpackSigned(bits, width)`: the signed value of the low `width` bits (R53). -/
def unpackSigned (bits width : Nat) : Int :=
  let f := bits % 2 ^ width
  if 2 ^ (width - 1) ≤ f then (f : Int) - 2 ^ width else f

/-! ## Encoder -/

/-- `reg3(r)`: a register operand, which must be in 0..7 (R66). -/
def reg3 (r : Int) : Except Condition Word :=
  if 0 ≤ r ∧ r ≤ 7 then .ok (BitVec.ofInt 16 r) else .error (.fieldOverflow 3 r)

/-- `u8(v)`: a trap vector, which must be in 0..255 (R66). -/
def u8 (v : Int) : Except Condition Word :=
  if 0 ≤ v ∧ v ≤ 255 then .ok (BitVec.ofInt 16 v) else .error (.fieldOverflow 8 v)

/-- `packSigned(v, width)` as a 16-bit word, ready to be joined to the other fields (R65). -/
def signedField (v : Int) (width : Nat) : Except Condition Word :=
  (packSigned v width).map (BitVec.ofNat 16)

/-- The tagged second source operand of ADD and AND (R68). -/
inductive Src2 where
  | reg (r : Int)
  | imm (v : Int)
  deriving DecidableEq, Repr

/-- The operands dr, sr1 and the tagged operand of ADD and AND, checked in this order; the tag sets `w[5]` (R65, R68). -/
def encOperate (base : Word) (dr sr1 : Int) (src : Src2) : Except Condition Word := do
  let d ← reg3 dr
  let a ← reg3 sr1
  match src with
  | .reg r => do
    let b ← reg3 r
    return base ||| d <<< 9 ||| a <<< 6 ||| b
  | .imm v => do
    let i ← signedField v 5
    return base ||| d <<< 9 ||| a <<< 6 ||| 0x0020#16 ||| i

/-- `encADD` (R70, R71). -/
def encADD (dr sr1 : Int) (src : Src2) : Except Condition Word :=
  encOperate 0x1000#16 dr sr1 src

/-- `encAND` (R72, R73). -/
def encAND (dr sr1 : Int) (src : Src2) : Except Condition Word :=
  encOperate 0x5000#16 dr sr1 src

/-- `encNOT` (R74). -/
def encNOT (dr sr : Int) : Except Condition Word := do
  let d ← reg3 dr
  let a ← reg3 sr
  return 0x9000#16 ||| d <<< 9 ||| a <<< 6 ||| 0x003F#16

/-- A mask bit of `encBR` at bit `pos`. -/
def maskBit (b : Bool) (pos : Nat) : Word :=
  if b then 1#16 <<< pos else 0#16

/-- `encBR` (R75). -/
def encBR (n z p : Bool) (off : Int) : Except Condition Word := do
  let o ← signedField off 9
  return 0x0000#16 ||| maskBit n 11 ||| maskBit z 10 ||| maskBit p 9 ||| o

/-- `encJMP` (R76). -/
def encJMP (base : Int) : Except Condition Word := do
  let b ← reg3 base
  return 0xC000#16 ||| b <<< 6

/-- `encJSR` (R77). -/
def encJSR (off : Int) : Except Condition Word := do
  let o ← signedField off 11
  return 0x4800#16 ||| o

/-- `encJSRR` (R78). -/
def encJSRR (base : Int) : Except Condition Word := do
  let b ← reg3 base
  return 0x4000#16 ||| b <<< 6

/-- The jump to subroutine with either tag: an offset gives JSR, a register JSRR, so the tag sets `w[11]` (R68). -/
def encJumpSub (target : Src2) : Except Condition Word :=
  match target with
  | .imm off => encJSR off
  | .reg r => encJSRR r

/-- The format PC9: a register in `w[11:9]` and a 9-bit offset (R56). -/
def encPC9 (op : Word) (r off : Int) : Except Condition Word := do
  let d ← reg3 r
  let o ← signedField off 9
  return op ||| d <<< 9 ||| o

/-- The format BASE6: a register in `w[11:9]`, a base in `w[8:6]` and a 6-bit offset (R56). -/
def encBASE6 (op : Word) (r base off : Int) : Except Condition Word := do
  let d ← reg3 r
  let b ← reg3 base
  let o ← signedField off 6
  return op ||| d <<< 9 ||| b <<< 6 ||| o

/-- `encLD` (R79). -/
def encLD (dr off : Int) : Except Condition Word := encPC9 0x2000#16 dr off

/-- `encLDI` (R80). -/
def encLDI (dr off : Int) : Except Condition Word := encPC9 0xA000#16 dr off

/-- `encLDR` (R81). -/
def encLDR (dr base off : Int) : Except Condition Word := encBASE6 0x6000#16 dr base off

/-- `encLEA` (R82). -/
def encLEA (dr off : Int) : Except Condition Word := encPC9 0xE000#16 dr off

/-- `encST` (R83). -/
def encST (sr off : Int) : Except Condition Word := encPC9 0x3000#16 sr off

/-- `encSTI` (R84). -/
def encSTI (sr off : Int) : Except Condition Word := encPC9 0xB000#16 sr off

/-- `encSTR` (R85). -/
def encSTR (sr base off : Int) : Except Condition Word := encBASE6 0x7000#16 sr base off

/-- `encTRAP`, which accepts every vector 0..255 (R86). -/
def encTRAP (v : Int) : Except Condition Word := do
  let b ← u8 v
  return 0xF000#16 ||| b

/-- `encGETC` (R86). -/
def encGETC : Word := 0xF020#16

/-- `encOUT` (R86). -/
def encOUT : Word := 0xF021#16

/-- `encPUTS` (R86). -/
def encPUTS : Word := 0xF022#16

/-- `encIN` (R86). -/
def encIN : Word := 0xF023#16

/-- `encPUTSP` (R86). -/
def encPUTSP : Word := 0xF024#16

/-- `encHALT` (R86). -/
def encHALT : Word := 0xF025#16

/-- The word that the encoder function of the instruction gives; `none` for the two reserved opcodes, which have no
encoder function (R67). -/
def encode : Instr → Option Word
  | .br n z p off => (encBR n z p off.toInt).toOption
  | .addReg dr sr1 sr2 => (encADD dr.val sr1.val (.reg sr2.val)).toOption
  | .addImm dr sr1 imm => (encADD dr.val sr1.val (.imm imm.toInt)).toOption
  | .ld dr off => (encLD dr.val off.toInt).toOption
  | .st sr off => (encST sr.val off.toInt).toOption
  | .jsr off => (encJSR off.toInt).toOption
  | .jsrr base => (encJSRR base.val).toOption
  | .andReg dr sr1 sr2 => (encAND dr.val sr1.val (.reg sr2.val)).toOption
  | .andImm dr sr1 imm => (encAND dr.val sr1.val (.imm imm.toInt)).toOption
  | .ldr dr base off => (encLDR dr.val base.val off.toInt).toOption
  | .str sr base off => (encSTR sr.val base.val off.toInt).toOption
  | .reserved8 => none
  | .notReg dr sr => (encNOT dr.val sr.val).toOption
  | .ldi dr off => (encLDI dr.val off.toInt).toOption
  | .sti sr off => (encSTI sr.val off.toInt).toOption
  | .jmp base => (encJMP base.val).toOption
  | .reservedD => none
  | .lea dr off => (encLEA dr.val off.toInt).toOption
  | .trapGetc => some encGETC
  | .trapOut => some encOUT
  | .trapPuts => some encPUTS
  | .trapIn => some encIN
  | .trapPutsp => some encPUTSP
  | .trapHalt => some encHALT
  | .trap v => (encTRAP v.toNat).toOption

end Sys2Proof
end

