-- ==== Sys2Proof/Config.lean ====
section
/-! DEFINITION. What the hardware fixes, and the one value it leaves open (spec 00_scope.md R4). The run options
MEM_WORDS, LOWMEM, INPUT0, sink, STEP_LIMIT and IN_PROMPT are arguments of `start`, and those that outlive it are
fields of State (log entry 25). -/

namespace Sys2Proof

/-- `ORIGIN`: the program load address and the reset PC (R4). -/
abbrev Config.origin : Nat := 0x3000

/-- `LOWMEM_MAX`: the most words that pre-seeded low memory holds, decimal 3000 (R4, conflict C7). -/
abbrev Config.lowmemMax : Nat := 3000

/-- The largest legal `MEM_WORDS`, which is also its default (R4, R30). -/
abbrev Config.memWordsMax : Nat := 65536

/-- The default of the OPEN parameter `IN_PROMPT`, the fixed prompt whose text the spec does not give (R4, R144, D19).
A free value: nothing in Lean can see what it is (log entry 5). -/
opaque Config.inPrompt : List Byte

end Sys2Proof
end

