-- ==== Sys2Proof/Machine/State.lean ====
section
/-! DEFINITION. The state of the core (10_state.md R10 to R26, 20_memory.md R30), the reasons a step can stop, and the
state after reset. -/

namespace Sys2Proof.Machine

/-- The two services that read a character (R20). -/
inductive Service where
  | getc
  | inChar
  deriving DecidableEq, Repr

/-- Why a run halted (R20). -/
inductive Cause where
  /-- The HALT trap (R146). -/
  | halt
  /-- PC passed the end of memory at retire (R97). -/
  | endOfMemory
  /-- A raised condition (R188), the step cap (R94) or an abort (R211). -/
  | condition (c : Condition)
  deriving DecidableEq, Repr

/-- The run state; `pending` is a sub-field of Running (R20). -/
inductive RunState where
  | idle
  | running (pending : Option Service)
  | halted (cause : Cause)
  deriving DecidableEq, Repr

/-- The status of a halted run (R200). -/
inductive Status where
  | success
  | failure
  deriving DecidableEq, Repr

/-- Memory: the cells whose word differs from what an unlisted cell reads as, sorted by word address, without repeats.
A cell is one 16-bit word, the smallest addressable unit (R30; log entry 1). -/
abbrev Memory := List (Nat × Word)

/-- The core's state. -/
structure State where
  /-- R0 to R7 (R10). -/
  regs : Vector Word 8
  /-- The program counter, a word address (R13). -/
  pc : Word
  /-- The condition-code register: 0 none, 1 P, 2 Z, 4 N (R16). -/
  cond : Word
  /-- The cells M[0] to M[memWords - 1] (R30). -/
  mem : Memory
  /-- `MEM_WORDS`, the number of cells, set by `start` (R30). -/
  memWords : Nat
  /-- The run state with its pending read (R20). -/
  runState : RunState
  /-- The input queue, next byte first (R21). -/
  inq : List Byte
  /-- The accumulated output, oldest byte first (R22). -/
  outlog : List Byte
  /-- The error state (R23). -/
  error : Option Condition
  /-- The number of instructions retired since `start` (R24). -/
  steps : Nat
  /-- `STEP_LIMIT`, set by `start`; `none` is no cap (R4, R94). -/
  stepLimit : Option Nat
  /-- `IN_PROMPT`, set by `start` (R4, R144). -/
  inPrompt : List Byte
  /-- Whether `start` was given a sink (R201). -/
  sinkAttached : Bool
  /-- The chunks handed to the sink since `start`, oldest first: the model's record of the sink calls (R152, log 7). -/
  chunks : List (List Byte)
  deriving DecidableEq, Repr

/-- Reasons a step has no next state. -/
inductive Fault where
  /-- Raised by PUTS and PUTSP when the walk has read every cell of a full memory and none holds 0x0000: the
  instruction never completes (R143, R145, D29, I11). Safe: the machine too goes no further. -/
  | unterminatedString
  deriving DecidableEq, Repr

/-- Calls that are refused and change nothing. -/
inductive Refusal where
  /-- Raised by `exec` for an instruction that has no meaning in the model. Safe. -/
  | notModelled (mnemonic : String)
  /-- Raised by `step` in Idle (R93, R209). Safe: the core refuses too. -/
  | stepWhileIdle
  /-- Raised by `step` in Halted (R93, R209). Safe: the core refuses too. -/
  | stepWhileHalted
  /-- Raised by `step` while a read is pending (R93, R209). Safe: the core refuses too. -/
  | stepWhileReadPending
  /-- Raised by `start` while Running (R202). Safe: the core rejects too. -/
  | startWhileRunning
  /-- Raised by `start` for MEM_WORDS outside 1..65,536 (R30, D9, I15). Safe. -/
  | memWordsOutOfRange
  /-- Raised by `push` outside Running (R210). Safe: the core refuses too. -/
  | pushWhileNotRunning
  /-- Raised by `push` for a code outside 0..255 (R148, D23). Safe: the core refuses too. -/
  | pushNotAByte
  /-- Raised by `abort` outside Running (R211, D22, I6). Safe: nothing changes there either. -/
  | abortWhileNotRunning
  deriving DecidableEq, Repr

/-- The state that `start` leaves for an empty program and default options (R26, R203; log entries 3, 4, 5). -/
def State.reset : State where
  regs := Vector.replicate 8 0x0000#16
  pc := 0x3000#16
  cond := 0x0000#16
  mem := []
  memWords := 65536
  runState := .running none
  inq := []
  outlog := []
  error := none
  steps := 0
  stepLimit := none
  inPrompt := Config.inPrompt
  sinkAttached := false
  chunks := []

end Sys2Proof.Machine
end

