-- ==== Sys2Proof/Machine/Flags.lean ====
section
/-! DEFINITION. The condition codes (10_state.md R15 to R19) and the branch test (41_control.md R110). -/

namespace Sys2Proof.Machine

/-- P, the last flag-setting value was positive (R16). -/
def condP : Word := 0x0001#16

/-- Z, the last flag-setting value was zero (R16). -/
def condZ : Word := 0x0002#16

/-- N, the last flag-setting value was negative (R16). -/
def condN : Word := 0x0004#16

/-- The COND pattern that `SetCC(v)` writes (R17). -/
def ccOf (v : Word) : Word :=
  if v = 0x0000#16 then condZ
  else if v[15] then condN
  else condP

/-- `SetCC(v)` (R17). -/
def State.setCC (s : State) (v : Word) : State :=
  { s with cond := ccOf v }

/-- The BR mask `{n, z, p}` as a word: n at bit 2, z at bit 1, p at bit 0 (R110). -/
def maskWord (n z p : Bool) : Word :=
  (BitVec.ofBool n ++ BitVec.ofBool z ++ BitVec.ofBool p).setWidth 16

/-- Whether BR is taken: the mask intersects COND (R110). -/
def branchTaken (n z p : Bool) (cond : Word) : Bool :=
  (maskWord n z p &&& cond) != 0x0000#16

end Sys2Proof.Machine
end

