-- ==== Sys2Proof/Machine/Ops.lean ====
section
/-! DEFINITION. The named operations over registers, memory, the run state and the I/O channel. -/

namespace Sys2Proof.Machine

/-! ## Registers (R10, R12) -/

/-- `x[i]` (R6). -/
def State.reg (s : State) (r : Reg) : Word :=
  s.regs.get r

/-- `x[i] <- v` (R6). -/
def State.setReg (s : State) (r : Reg) (v : Word) : State :=
  { s with regs := s.regs.set r.val v r.isLt }

/-- `x[DR] <- v` and then `SetCC(v)`, as every flag-setting instruction does (R18). -/
def State.writeResult (s : State) (dr : Reg) (v : Word) : State :=
  (s.setReg dr v).setCC v

/-! ## Memory (R30 to R44) -/

/-- What a cell that nothing has written reads as (R26, R203; log entry 2). -/
def unlistedWord : Word := 0x0000#16

/-- The word in the cell at address `a`. -/
def Memory.read : Memory → Nat → Word
  | [], _ => unlistedWord
  | c :: m, a => if c.1 = a then c.2 else Memory.read m a

/-- The memory without an entry for `a`. -/
def Memory.erase (m : Memory) (a : Nat) : Memory :=
  m.filter fun c => c.1 != a

/-- The entry `(a, v)` put before the first entry with a higher address. -/
def Memory.insert : Memory → Nat → Word → Memory
  | [], a, v => [(a, v)]
  | c :: m, a, v => if a < c.1 then (a, v) :: c :: m else c :: Memory.insert m a v

/-- `M[a] <- v`; a write of the unlisted word removes the entry, so that equal memories are equal lists. -/
def Memory.write (m : Memory) (a : Nat) (v : Word) : Memory :=
  if v = unlistedWord then m.erase a else (m.erase a).insert a v

/-- The canonical form: addresses strictly rising, no entry equal to what an unlisted cell reads as. -/
abbrev Memory.wf (m : Memory) : Prop :=
  m.Pairwise (fun c d => c.1 < d.1) ∧ ∀ c ∈ m, c.2 ≠ unlistedWord

/-- `MemRead(addr, 1)` (R33). -/
def State.memRead (s : State) (addr : Word) : Except Condition Word :=
  if uval addr < s.memWords then .ok (s.mem.read (uval addr)) else .error (.unmappedAccess addr)

/-- `MemWrite(addr, 1, v)` (R34). -/
def State.memWrite (s : State) (addr v : Word) : Except Condition State :=
  if uval addr < s.memWords then .ok { s with mem := s.mem.write (uval addr) v }
  else .error (.unmappedAccess addr)

/-- `Fetch(a)`; `none` is INVALID (R35). -/
def State.fetch (s : State) (a : Word) : Option Word :=
  if uval a < s.memWords then some (s.mem.read (uval a)) else none

/-! ## Halting and raising a condition (R188, R200) -/

/-- `halt(status, cause)`: the run state becomes `Halted(cause)` and nothing else changes (R200). -/
def State.halt (s : State) (cause : Cause) : State :=
  { s with runState := .halted cause }

/-- `raise E(info)`: taking a condition. The error is recorded and the core halts; nothing else changes (R188). -/
def State.raise (s : State) (c : Condition) : State :=
  { s with error := some c, runState := .halted (.condition c) }

/-- Whether a halt cause is a success (R200, D31). -/
def Cause.status : Cause → Status
  | .halt => .success
  | .endOfMemory => .success
  | .condition _ => .failure

/-- The status that `halt` records, derived from the cause; `none` while the run has none yet (R200, log entry 6). -/
def State.status (s : State) : Option Status :=
  match s.runState with
  | .halted cause => some cause.status
  | .running _ => none
  | .idle => none

/-- The rest of an instruction after an access that can raise: on an error the condition is taken in the state before
the access, and no later part of the instruction happens (R188). -/
def orRaise {α : Type} (s : State) (r : Except Condition α)
    (rest : α → Host.Outcome State Fault Refusal) : Host.Outcome State Fault Refusal :=
  match r with
  | .ok v => rest v
  | .error c => .next (s.raise c)

/-! ## Retiring an instruction (R95 to R97) -/

/-- `pc <- seq mod 65536`, the increment at fetch (R95). -/
def State.advancePc (s : State) : State :=
  { s with pc := s.pc + 1#16 }

/-- `seq`, the unwrapped address 1..65536 after the fetched instruction, read off the incremented PC: only 65,536 wraps
to 0 (R95, log entry 11). -/
def seqOf (pc : Word) : Nat :=
  if pc = 0#16 then 65536 else uval pc

/-- Retire with the next address `npc`: count the step, and end the run past the end of memory (R97). -/
def State.retire (s : State) (npc : Nat) : State :=
  let t := { s with steps := s.steps + 1 }
  if s.memWords ≤ npc then t.halt .endOfMemory else t

/-- Retire after an instruction that leaves PC alone: `npc` is `seq` (R97). -/
def State.retireSeq (s : State) : State :=
  s.retire (seqOf s.pc)

/-- `pc <- target` with `redirected`, then retire: `npc` is the 16-bit target (R96, R97). -/
def State.redirect (s : State) (target : Word) : State :=
  { s with pc := target }.retire (uval target)

/-! ## The I/O channel (R148 to R152) -/

/-- `Emit(bytes)`: the log grows by the chunk, and the sink, if there is one, gets it exactly once (R152, D38). -/
def State.emit (s : State) (bytes : List Byte) : State :=
  { s with
    outlog := s.outlog ++ bytes
    chunks := if s.sinkAttached then s.chunks ++ [bytes] else s.chunks }

/-- The end of a GETC or IN that has its byte: `x[0] <- zext_8(c)`, `SetCC`, retire (R141, R144, R149). -/
def State.deliver (s : State) (c : Byte) : State :=
  (s.writeResult 0 (c.setWidth 16)).retireSeq

/-- `ReadChar()` and what follows it: take the head of the queue, or suspend on an empty one (R151). -/
def State.readChar (s : State) (svc : Service) : State :=
  match s.inq with
  | c :: rest => { s with inq := rest }.deliver c
  | [] => { s with runState := .running (some svc) }

/-- `Resume(c)`: the suspended read completes with the pushed byte, which does not pass through the queue (R149). -/
def State.resume (s : State) (c : Byte) : State :=
  { s with runState := .running none }.deliver c

/-- The walk of PUTS and PUTSP from `addr` (R143, R145): `bytesOf` gives the bytes of a non-zero cell, `out` holds those
gathered so far. The walk visits at most 65,536 cells before it comes back to its first: `fuel` cells are left, and with
none left it never ends (D29, log entry 9). -/
def State.stringWalk (s : State) (bytesOf : Word → List Byte) :
    (fuel : Nat) → (addr : Word) → (out : List Byte) → Host.Outcome State Fault Refusal
  | 0, _, _ => .fault .unterminatedString
  | fuel + 1, addr, out =>
    orRaise s (s.memRead addr) fun v =>
      if v = 0x0000#16 then .next (s.emit out).retireSeq
      else State.stringWalk s bytesOf fuel (addr + 1#16) (out ++ bytesOf v)

/-! ## The start of a step (R93, R94) -/

/-- Why a step cannot begin, or `none` when the core is Running with no pending read (R93, R209). -/
def State.stepRefusal (s : State) : Option Refusal :=
  match s.runState with
  | .idle => some .stepWhileIdle
  | .halted _ => some .stepWhileHalted
  | .running (some _) => some .stepWhileReadPending
  | .running none => none

/-- The step cap is reached (R94). -/
def State.capReached (s : State) : Bool :=
  match s.stepLimit with
  | none => false
  | some limit => limit ≤ s.steps

end Sys2Proof.Machine
end

