-- ==== Sys2Proof/Machine/Operands.lean ====
section
/-! DEFINITION. The operand forms: sign and zero extension (R6), the bytes of a cell, and the addressing modes (R119).
Here `pc` is the address of the next instruction (R13). -/

namespace Sys2Proof.Machine

/-- `sext_N` (R6, R7). -/
def sext {n : Nat} (f : BitVec n) : Word :=
  f.signExtend 16

/-- The PC-relative address `pc +16 sext_9(PCoffset9)` of BR, LD, LDI, LEA, ST and STI (R109, R119). -/
def State.pcRel9 (s : State) (off : BitVec 9) : Word :=
  s.pc + sext off

/-- The PC-relative target `pc +16 sext_11(PCoffset11)` of JSR (R112). -/
def State.pcRel11 (s : State) (off : BitVec 11) : Word :=
  s.pc + sext off

/-- The base and offset address `x[BaseR] +16 sext_6(offset6)` of LDR and STR (R119). -/
def State.baseOff (s : State) (base : Reg) (off : BitVec 6) : Word :=
  s.reg base + sext off

/-- The low byte of a cell or register, bits 7..0 (R142, R143). -/
def lowByte (v : Word) : Byte :=
  v.extractLsb' 0 8

/-- The high byte of a cell, bits 15..8 (R145). -/
def highByte (v : Word) : Byte :=
  v.extractLsb' 8 8

/-- The byte that PUTS emits for a non-zero cell (R143). -/
def putsBytes (v : Word) : List Byte :=
  [lowByte v]

/-- The bytes that PUTSP emits for a non-zero cell: low byte first, a zero second byte omitted (R145). -/
def putspBytes (v : Word) : List Byte :=
  if highByte v = 0#8 then [lowByte v] else [lowByte v, highByte v]

end Sys2Proof.Machine
end

