-- ==== Sys2Proof/Machine/Control.lean ====
section
/-! DEFINITION. BR, JMP, JSR and JSRR (41_control.md R109 to R113). None of them changes COND. -/

namespace Sys2Proof.Machine

/-- BR (R110). -/
def execBr (n z p : Bool) (off : BitVec 9) (s : State) : Host.Outcome State Fault Refusal :=
  if branchTaken n z p s.cond then .next (s.redirect (s.pcRel9 off))
  else .next s.retireSeq

/-- JMP (R111). -/
def execJmp (base : Reg) (s : State) : Host.Outcome State Fault Refusal :=
  .next (s.redirect (s.reg base))

/-- JSR (R112). -/
def execJsr (off : BitVec 11) (s : State) : Host.Outcome State Fault Refusal :=
  .next ((s.setReg Reg.link s.pc).redirect (s.pcRel11 off))

/-- JSRR: the link is written first, and BaseR is read after it (R113, D15). -/
def execJsrr (base : Reg) (s : State) : Host.Outcome State Fault Refusal :=
  let linked := s.setReg Reg.link s.pc
  .next (linked.redirect (linked.reg base))

end Sys2Proof.Machine
end

