-- ==== Sys2Proof/Machine/LoadStore.lean ====
section
/-! DEFINITION. LD, LDI, LDR, LEA, ST, STI and STR (42_load_store.md R119 to R126). -/

namespace Sys2Proof.Machine

/-- A load of the cell at `ea` into DR, with flags (R120 to R122). -/
def State.loadInto (s : State) (dr : Reg) (ea : Word) : Host.Outcome State Fault Refusal :=
  orRaise s (s.memRead ea) fun v => .next (s.writeResult dr v).retireSeq

/-- A store of SR to the cell at `ea` (R124 to R126). -/
def State.storeFrom (s : State) (sr : Reg) (ea : Word) : Host.Outcome State Fault Refusal :=
  orRaise s (s.memWrite ea (s.reg sr)) fun t => .next t.retireSeq

/-- LD (R120). -/
def execLd (dr : Reg) (off : BitVec 9) (s : State) : Host.Outcome State Fault Refusal :=
  s.loadInto dr (s.pcRel9 off)

/-- LDI (R121). -/
def execLdi (dr : Reg) (off : BitVec 9) (s : State) : Host.Outcome State Fault Refusal :=
  orRaise s (s.memRead (s.pcRel9 off)) fun ea => s.loadInto dr ea

/-- LDR (R122). -/
def execLdr (dr base : Reg) (off : BitVec 6) (s : State) : Host.Outcome State Fault Refusal :=
  s.loadInto dr (s.baseOff base off)

/-- LEA, which touches no memory and sets flags (R123). -/
def execLea (dr : Reg) (off : BitVec 9) (s : State) : Host.Outcome State Fault Refusal :=
  .next (s.writeResult dr (s.pcRel9 off)).retireSeq

/-- ST (R124). -/
def execSt (sr : Reg) (off : BitVec 9) (s : State) : Host.Outcome State Fault Refusal :=
  s.storeFrom sr (s.pcRel9 off)

/-- STI (R125). -/
def execSti (sr : Reg) (off : BitVec 9) (s : State) : Host.Outcome State Fault Refusal :=
  orRaise s (s.memRead (s.pcRel9 off)) fun ea => s.storeFrom sr ea

/-- STR (R126). -/
def execStr (sr base : Reg) (off : BitVec 6) (s : State) : Host.Outcome State Fault Refusal :=
  s.storeFrom sr (s.baseOff base off)

end Sys2Proof.Machine
end

