-- ==== Sys2Proof/Machine/Reserved.lean ====
section
/-! DEFINITION. The two reserved opcodes (44_reserved.md R170, R171). -/

namespace Sys2Proof.Machine

/-- Opcode 0x8 (R170). -/
def execReserved8 (s : State) : Host.Outcome State Fault Refusal :=
  .next (s.raise (.badOpcode (some 0x8#4)))

/-- Opcode 0xD (R171). -/
def execReservedD (s : State) : Host.Outcome State Fault Refusal :=
  .next (s.raise (.badOpcode (some 0xD#4)))

end Sys2Proof.Machine
end

