-- ==== Sys2Proof/Machine/Trap.lean ====
section
/-! DEFINITION. The six TRAP services and the undefined vectors (43_trap.md R140 to R147). No service touches R7. -/

namespace Sys2Proof.Machine

/-- The most cells that a string walk visits before it comes back to its first: the 16-bit addresses (R32, D29). -/
def walkFuel : Nat := 65536

/-- TRAP x20, GETC (R141). -/
def execTrapGetc (s : State) : Host.Outcome State Fault Refusal :=
  .next (s.readChar .getc)

/-- TRAP x21, OUT (R142). -/
def execTrapOut (s : State) : Host.Outcome State Fault Refusal :=
  .next (s.emit [lowByte (s.reg 0)]).retireSeq

/-- TRAP x22, PUTS (R143). -/
def execTrapPuts (s : State) : Host.Outcome State Fault Refusal :=
  s.stringWalk putsBytes walkFuel (s.reg 0) []

/-- TRAP x23, IN: the prompt is emitted before the read (R144). -/
def execTrapIn (s : State) : Host.Outcome State Fault Refusal :=
  .next ((s.emit s.inPrompt).readChar .inChar)

/-- TRAP x24, PUTSP (R145). -/
def execTrapPutsp (s : State) : Host.Outcome State Fault Refusal :=
  s.stringWalk putspBytes walkFuel (s.reg 0) []

/-- TRAP x25, HALT, which does not retire (R146). -/
def execTrapHalt (s : State) : Host.Outcome State Fault Refusal :=
  .next (s.halt .halt)

/-- TRAP with an undefined vector (R147). -/
def execTrap (vec : BitVec 8) (s : State) : Host.Outcome State Fault Refusal :=
  .next (s.raise (.badTrap vec))

end Sys2Proof.Machine
end

