-- ==== Sys2Proof/Machine/Step.lean ====
section
/-! DEFINITION. One step: the instruction cycle (30_encoding.md R93 to R97), and how the host places the word that the
next step fetches. -/

namespace Sys2Proof.Machine

/-- The host's `step()` (R209): step enable (R93), step cap (R94), fetch and increment (R95), decode and execute (R96).
The retire of R97 is the end of each meaning. -/
def step (s : State) : Host.Outcome State Fault Refusal :=
  match s.stepRefusal with
  | some r => .refused r
  | none =>
    if s.capReached then .next (s.raise .stepLimit)
    else
      match s.fetch s.pc with
      | none => .next (s.advancePc.raise (.badOpcode none))
      | some w => exec (decode w) s.advancePc

/-- `s` with the word whose low `nbits` bits are `w` in the cell that the next step fetches, and with what that fetch
needs: the core Running with no pending read, no step cap, and a memory that has the cell (log entry 19). -/
def State.withFetchWord (s : State) (nbits w : Nat) : State :=
  { s with
    mem := s.mem.write (uval s.pc) (BitVec.ofNat 16 (w % 2 ^ nbits))
    memWords := max s.memWords (uval s.pc + 1)
    runState := .running none
    stepLimit := none }

end Sys2Proof.Machine
end

