-- ==== Sys2Proof/Machine/Lifecycle.lean ====
section
/-! DEFINITION. The host's side of a run: start and reset, push, abort, the outcome snapshot and `run`
(43_trap.md R148, 70_reset_and_hazards.md R200 to R212, R217). A refused call changes nothing. -/

namespace Sys2Proof.Machine

/-! ## Start and reset -/

/-- The options of `start`, with their defaults (R4, R201; log entries 4, 5). -/
structure Options where
  memWords : Nat := Config.memWordsMax
  lowmem : List Word := []
  input0 : List Byte := []
  sinkAttached : Bool := false
  stepLimit : Option Nat := none
  inPrompt : List Byte := Config.inPrompt
  deriving DecidableEq, Repr

/-- Words written to consecutive cells from `base`; a word at or beyond `memWords` is dropped, nothing wraps (R204,
R205). -/
def loadWords (memWords : Nat) : Memory → (base : Nat) → List Word → Memory
  | m, _, [] => m
  | m, base, w :: ws =>
    loadWords memWords (if base < memWords then m.write base w else m) (base + 1) ws

/-- The reset procedure (R203): zero memory, low memory of at most 3000 words (R204), then the image at the origin
(R205). -/
def resetState (program : List Word) (o : Options) : State where
  regs := Vector.replicate 8 0x0000#16
  pc := BitVec.ofNat 16 Config.origin
  cond := 0x0000#16
  mem := loadWords o.memWords (loadWords o.memWords [] 0 (o.lowmem.take Config.lowmemMax)) Config.origin program
  memWords := o.memWords
  runState := .running none
  inq := o.input0
  outlog := []
  error := none
  steps := 0
  stepLimit := o.stepLimit
  inPrompt := o.inPrompt
  sinkAttached := o.sinkAttached
  chunks := []

/-- `start(program, options)`: rejected while Running (R202), refused for an illegal memory size (R30, D9). -/
def State.start (s : State) (program : List Word) (o : Options) : Host.Outcome State Fault Refusal :=
  match s.runState with
  | .running _ => .refused .startWhileRunning
  | .idle | .halted _ =>
    if 1 ≤ o.memWords ∧ o.memWords ≤ Config.memWordsMax then .next (resetState program o)
    else .refused .memWordsOutOfRange

/-- The core before the first `start`: Idle. No rule reads what an Idle core holds besides (R26, D34, log entry 15). -/
def State.powerOn : State :=
  { State.reset with runState := .idle }

/-! ## Push and abort -/

/-- `push(c)`: resume the pending read with the byte, else enqueue it (R148, R210). -/
def State.push (s : State) (c : Int) : Host.Outcome State Fault Refusal :=
  match s.runState with
  | .idle | .halted _ => .refused .pushWhileNotRunning
  | .running pending =>
    if 0 ≤ c ∧ c ≤ 255 then
      match pending with
      | some _ => .next (s.resume (BitVec.ofInt 8 c))
      | none => .next { s with inq := s.inq ++ [BitVec.ofInt 8 c] }
    else .refused .pushNotAByte

/-- `abort()` (R211). -/
def State.abort (s : State) : Host.Outcome State Fault Refusal :=
  match s.runState with
  | .running _ => .next (s.raise .cancelled)
  | .idle | .halted _ => .refused .abortWhileNotRunning

/-! ## The host's calls as one transition (R200) -/

/-- A call of the host into the core (R201, R209, R210, R211). -/
inductive HostCall where
  | start (program : List Word) (options : Options)
  | step
  | push (c : Int)
  | abort
  deriving DecidableEq, Repr

/-- The effect of one call. -/
def State.call (s : State) : HostCall → Host.Outcome State Fault Refusal
  | .start program o => s.start program o
  | .step => step s
  | .push c => s.push c
  | .abort => s.abort

/-- Calls one after another, in any order the host likes: a refused call changes nothing, and a step that never
completes ends the sequence. -/
def State.calls (s : State) : List HostCall → Host.Outcome State Fault Refusal
  | [] => .next s
  | c :: cs =>
    match s.call c with
    | .next t => State.calls t cs
    | .refused _ => State.calls s cs
    | .fault f => .fault f

/-! ## The outcome and `run` -/

/-- The snapshot of a halted run, a copy that aliases nothing (R207). The memory is `M[0]` to `M[memWords - 1]`. -/
structure RunOutcome where
  status : Status
  error : Option Condition
  regs : Vector Word 8
  pc : Word
  cond : Word
  mem : Memory
  memWords : Nat
  output : List Byte
  deriving DecidableEq, Repr

/-- The snapshot, taken when the run state is Halted; a run that is not Halted has none (R207, R217). -/
def State.snapshot (s : State) : Option RunOutcome :=
  match s.runState with
  | .halted cause => some
    { status := cause.status
      error := s.error
      regs := s.regs
      pc := s.pc
      cond := s.cond
      mem := s.mem
      memWords := s.memWords
      output := s.outlog }
  | .idle | .running _ => none

/-- `run` leaves the core Idle; the rest is kept, which nothing can observe (R208, D34, log entry 15). -/
def State.toIdle (s : State) : State :=
  { s with runState := .idle }

/-- What a host does about a pending read: push a byte or abort (R206). -/
inductive WaitAnswer where
  | push (c : Int)
  | abort
  deriving DecidableEq, Repr

/-- The answer as a call (R210, R211). -/
def WaitAnswer.toCall : WaitAnswer → HostCall
  | .push c => .push c
  | .abort => .abort

/-- How `run` ends. -/
inductive RunResult where
  /-- The outcome, and the core Idle again (R206). -/
  | finished (outcome : RunOutcome) (s : State)
  /-- `start` was rejected (R202), so `run` is. -/
  | rejected (r : Refusal)
  /-- A step never completes (D29). -/
  | stuck (f : Fault)
  /-- The rounds or the host's answers are used up: the run has not ended (R212, R217). -/
  | unfinished (s : State)
  deriving DecidableEq, Repr

/-- The loop of `run` for at most `rounds` rounds: a step, or an answer taken while a read is pending (R206). An
answer that is refused changes nothing and the wait goes on. -/
def State.drive (rounds : Nat) (answers : List WaitAnswer) (s : State) : RunResult :=
  match s.snapshot with
  | some outcome => .finished outcome s.toIdle
  | none =>
    match rounds with
    | 0 => .unfinished s
    | left + 1 =>
      match s.runState with
      | .running (some _) =>
        match answers with
        | [] => .unfinished s
        | a :: rest =>
          match s.call a.toCall with
          | .next t => State.drive left rest t
          | .refused _ => State.drive left rest s
          | .fault f => .stuck f
      | .idle | .halted _ | .running none =>
        match step s with
        | .next t => State.drive left answers t
        | .fault f => .stuck f
        | .refused r => .rejected r

/-- `run(program, options)` (R206), with the host's answers to pending reads, for at most `rounds` rounds. -/
def State.run (s : State) (rounds : Nat) (program : List Word) (o : Options) (answers : List WaitAnswer) :
    RunResult :=
  match s.start program o with
  | .next t => State.drive rounds answers t
  | .refused r => .rejected r
  | .fault f => .stuck f

end Sys2Proof.Machine
end

