-- ==== Sys2Proof/Safety.lean ====
section
/-! DEFINITION. What counts as a sound state and the terms that claims use: the invariant, the spec's own readings of a
field and a sign, and the spec's tables of register writers (R12), flag setters (R18), PC values (R14) and stores. -/

namespace Sys2Proof

/-- `w[hi:lo]`, bits hi down to lo as an unsigned number (R6). -/
def fieldNat (w : Word) (hi lo : Nat) : Nat :=
  w.toNat / 2 ^ lo % 2 ^ (hi + 1 - lo)

/-- The register that the field `w[hi:lo]` names (R55). -/
def fieldReg (w : Word) (hi lo : Nat) : Reg :=
  Fin.ofNat 8 (fieldNat w hi lo)

/-- The `n`-bit pattern of the field of `w` from bit 0 (R57). -/
def fieldImm (w : Word) (n : Nat) : BitVec n :=
  BitVec.ofNat n (fieldNat w (n - 1) 0)

/-- The bits of a word that the decoder ignores, by its opcode and mode bit (R61). -/
def ignoredMask (w : Word) : Word :=
  match fieldNat w 15 12 with
  | 0x1 => if fieldNat w 5 5 = 0 then 0x0018#16 else 0x0000#16
  | 0x4 => if fieldNat w 11 11 = 0 then 0x063F#16 else 0x0000#16
  | 0x5 => if fieldNat w 5 5 = 0 then 0x0018#16 else 0x0000#16
  | 0x8 => 0x0FFF#16
  | 0x9 => 0x003F#16
  | 0xC => 0x0E3F#16
  | 0xD => 0x0FFF#16
  | 0xF => 0x0F00#16
  | _ => 0x0000#16

/-- The value the encoder writes in the ignored bits: 0, but ones in `w[5:0]` of NOT (R67). -/
def canonicalIgnored (w : Word) : Word :=
  if fieldNat w 15 12 = 0x9 then 0x003F#16 else 0x0000#16

/-- The term that a defined trap vector names (R63). -/
def serviceOf (v : BitVec 8) : Option Instr :=
  [(0x20#8, Instr.trapGetc), (0x21#8, Instr.trapOut), (0x22#8, Instr.trapPuts), (0x23#8, Instr.trapIn),
    (0x24#8, Instr.trapPutsp), (0x25#8, Instr.trapHalt)].lookup v

/-- The mask of the instruction's row in opcode_table.json: the bits that the row fixes. -/
def Instr.tableMask : Instr → Word
  | .addReg .. | .addImm .. | .andReg .. | .andImm .. => 0xF020#16
  | .jsr .. | .jsrr .. => 0xF800#16
  | .trapGetc | .trapOut | .trapPuts | .trapIn | .trapPutsp | .trapHalt => 0xF0FF#16
  | .br .. | .ld .. | .st .. | .ldr .. | .str .. | .reserved8 | .notReg .. | .ldi .. | .sti .. | .jmp ..
  | .reservedD | .lea .. | .trap .. => 0xF000#16

/-- The match of the instruction's row in opcode_table.json: the values of the bits that the row fixes. -/
def Instr.tableMatch : Instr → Word
  | .br .. => 0x0000#16
  | .addReg .. => 0x1000#16
  | .addImm .. => 0x1020#16
  | .ld .. => 0x2000#16
  | .st .. => 0x3000#16
  | .jsr .. => 0x4800#16
  | .jsrr .. => 0x4000#16
  | .andReg .. => 0x5000#16
  | .andImm .. => 0x5020#16
  | .ldr .. => 0x6000#16
  | .str .. => 0x7000#16
  | .reserved8 => 0x8000#16
  | .notReg .. => 0x9000#16
  | .ldi .. => 0xA000#16
  | .sti .. => 0xB000#16
  | .jmp .. => 0xC000#16
  | .reservedD => 0xD000#16
  | .lea .. => 0xE000#16
  | .trapGetc => 0xF020#16
  | .trapOut => 0xF021#16
  | .trapPuts => 0xF022#16
  | .trapIn => 0xF023#16
  | .trapPutsp => 0xF024#16
  | .trapHalt => 0xF025#16
  | .trap .. => 0xF000#16

/-- The two reserved opcodes, which have no encoder function (R67). -/
def Instr.isReserved : Instr → Bool
  | .reserved8 | .reservedD => true
  | .br .. | .addReg .. | .addImm .. | .ld .. | .st .. | .jsr .. | .jsrr .. | .andReg .. | .andImm .. | .ldr ..
  | .str .. | .notReg .. | .ldi .. | .sti .. | .jmp .. | .lea .. | .trapGetc | .trapOut | .trapPuts | .trapIn
  | .trapPutsp | .trapHalt | .trap .. => false

/-- The general register that an instruction writes (the table of R12). -/
def Instr.regWritten : Instr → Option Reg
  | .addReg dr _ _ | .addImm dr _ _ | .andReg dr _ _ | .andImm dr _ _ | .notReg dr _ => some dr
  | .ld dr _ | .ldi dr _ | .ldr dr _ _ | .lea dr _ => some dr
  | .jsr _ | .jsrr _ => some 7
  | .trapGetc | .trapIn => some 0
  | .br .. | .jmp .. | .st .. | .sti .. | .str .. | .trapOut | .trapPuts | .trapPutsp | .trapHalt | .trap ..
  | .reserved8 | .reservedD => none

/-- The flag-setting instructions, each with the register whose new value sets COND (R18). -/
def Instr.flagSource : Instr → Option Reg
  | .addReg dr _ _ | .addImm dr _ _ | .andReg dr _ _ | .andImm dr _ _ | .notReg dr _ => some dr
  | .ld dr _ | .ldi dr _ | .ldr dr _ _ | .lea dr _ => some dr
  | .trapGetc | .trapIn => some 0
  | .br .. | .jmp .. | .jsr .. | .jsrr .. | .st .. | .sti .. | .str .. | .trapOut | .trapPuts | .trapPutsp
  | .trapHalt | .trap .. | .reserved8 | .reservedD => none

namespace Machine

/-- The COND pattern for a value, by its signed reading (R16). -/
def signCond (v : Word) : Word :=
  if sval v = 0 then 0x0002#16 else if 0 < sval v then 0x0001#16 else 0x0004#16

/-- The run state after a retire whose next address is `npc` (R97). -/
def State.runStateAt (s : State) (npc : Nat) : RunState :=
  if npc < s.memWords then s.runState else .halted .endOfMemory

/-- `s` after an instruction that does nothing but retire sequentially (R97). -/
def State.afterSeq (s : State) : State :=
  { s with steps := s.steps + 1, runState := s.runStateAt (seqOf s.pc) }

/-- `s` after a flag-setting instruction wrote `v` to DR and retired: COND follows the sign of `v` (R18, R97). -/
def State.afterResult (s : State) (dr : Reg) (v : Word) : State :=
  { s with
    regs := s.regs.set dr.val v dr.isLt
    cond := signCond v
    steps := s.steps + 1
    runState := s.runStateAt (seqOf s.pc) }

/-- `s` after a control transfer to `target` retired (R96, R97). -/
def State.afterJump (s : State) (target : Word) : State :=
  { s with pc := target, steps := s.steps + 1, runState := s.runStateAt (uval target) }

/-- `s` after a store of `v` to the cell at `ea` retired: the other cells read as before. -/
def State.afterStore (s : State) (ea v : Word) (t : State) : Prop :=
  t.mem.read (uval ea) = v ∧ (∀ a, a ≠ uval ea → t.mem.read a = s.mem.read a) ∧
    t = { s with mem := t.mem, steps := s.steps + 1, runState := s.runStateAt (seqOf s.pc) }

/-- `s` halted by the condition `c`: the error is recorded and nothing else changes (R188). -/
def State.afterRaise (s : State) (c : Condition) : State :=
  { s with error := some c, runState := .halted (.condition c) }

/-- The step cap lets a step begin (R94). -/
def State.BelowCap (s : State) : Prop :=
  ∀ limit, s.stepLimit = some limit → s.steps < limit

/-- The address that a store instruction writes: the address its meaning computes; `none` for an instruction that stores
nothing, and for an STI whose pointer has no cell (R124 to R126). -/
def storeAddress (s : State) : Instr → Option Word
  | .st _ off => some (s.pcRel9 off)
  | .sti _ off => (s.memRead (s.pcRel9 off)).toOption
  | .str _ base off => some (s.baseOff base off)
  | .br .. | .addReg .. | .addImm .. | .ld .. | .jsr .. | .jsrr .. | .andReg .. | .andImm .. | .ldr ..
  | .reserved8 | .notReg .. | .ldi .. | .jmp .. | .reservedD | .lea .. | .trapGetc | .trapOut | .trapPuts
  | .trapIn | .trapPutsp | .trapHalt | .trap .. => none

/-- The PC after an instruction, from the state in which PC reads `seq` (the table of R14). -/
def pcAfter (s : State) : Instr → Word
  | .br n z p off => if (n && s.cond[2]) || (z && s.cond[1]) || (p && s.cond[0]) then s.pc + off.signExtend 16 else s.pc
  | .jmp base => s.reg base
  | .jsr off => s.pc + off.signExtend 16
  | .jsrr base => if base = 7 then s.pc else s.reg base
  | .addReg .. | .addImm .. | .ld .. | .st .. | .andReg .. | .andImm .. | .ldr .. | .str .. | .reserved8
  | .notReg .. | .ldi .. | .sti .. | .reservedD | .lea .. | .trapGetc | .trapOut | .trapPuts | .trapIn
  | .trapPutsp | .trapHalt | .trap .. => s.pc

/-- The cell that a string service reads at its `i`-th visit: the walk wraps modulo 2^16 (R32, R143). -/
def State.stringCell (s : State) (i : Nat) : Word :=
  s.mem.read ((uval (s.reg 0) + i) % 65536)

/-- The `i`-th visited cell exists and does not end the string (R143). -/
def State.stringGoesOn (s : State) (i : Nat) : Prop :=
  (uval (s.reg 0) + i) % 65536 < s.memWords ∧ s.stringCell i ≠ 0x0000#16

/-- `cs` can be the calls of the loop of `run` from the started state `s` (R206): the calls that are no steps are the
host's answers, in their order; a step is called where the core is Running without a pending read, and an answer is
taken where a read is pending. -/
def State.LoopCalls (s : State) (answers : List WaitAnswer) (cs : List HostCall) : Prop :=
  cs.filter (· ≠ .step) <+: answers.map WaitAnswer.toCall ∧
    ∀ pre c post, cs = pre ++ c :: post → ∃ v, s.calls pre = .next v ∧
      if c = .step then v.runState = .running none else ∃ svc, v.runState = .running (some svc)

/-- The invariant of the machine: what holds after `start` and what every step and every host call keeps. -/
structure State.Inv (s : State) : Prop where
  /-- Memory keeps its canonical form. -/
  memWf : s.mem.wf
  /-- No cell lies at or above `MEM_WORDS` (R30). -/
  memInside : ∀ c ∈ s.mem, c.1 < s.memWords
  /-- `MEM_WORDS` is legal (R30). -/
  memWordsLegal : 1 ≤ s.memWords ∧ s.memWords ≤ 65536
  /-- COND holds one of its four patterns (R16). -/
  condLegal : s.cond = 0x0000#16 ∨ s.cond = 0x0001#16 ∨ s.cond = 0x0002#16 ∨ s.cond = 0x0004#16
  /-- The error state is the condition that halted the core, and none otherwise (R23, R188). -/
  errorIsCause : s.runState = .idle ∨ ∀ c, s.error = some c ↔ s.runState = .halted (.condition c)
  /-- A read is pending only while the input queue is empty (R148, R151). -/
  pendingQueueEmpty : ∀ svc, s.runState = .running (some svc) → s.inq = []
  /-- The step counter does not pass the step cap, and a suspended step began below it (R94). -/
  belowCap : ∀ limit, s.stepLimit = some limit →
    s.steps ≤ limit ∧ ∀ svc, s.runState = .running (some svc) → s.steps < limit
  /-- The log is the chunks that the sink has seen; without a sink there are none (R152, D38). -/
  sinkSawLog : if s.sinkAttached then s.outlog = s.chunks.flatten else s.chunks = []
  /-- Between steps the next fetch finds a cell, but for the first fetch of a run (R97, conflict C1). -/
  nextFetch : s.runState = .running none →
    uval s.pc < s.memWords ∨ (s.steps = 0 ∧ s.pc = 0x3000#16)

end Machine

end Sys2Proof
end

