-- ==== Sys2Proof/Certificates/Slice0/Obligations.lean ====
section
/-! DEFINITION. The statements for the provers. A meaning runs on the state whose PC the fetch has already incremented,
so `s.pc` is `seq mod 65536` in every statement about `exec` (30_encoding.md R96). -/

open Sys2Proof Sys2Proof.Machine

/-! ## Encoding -/

/-- Words of 95_test_vectors.md section 2.3 (V-D1 to V-D11) decode to the instructions they stand for. -/
def Obligations.DecodeReadsSpecWords : Prop :=
  decode 0x1018#16 = .addReg 0 0 0 ∧ decode 0x103D#16 = .addImm 0 0 (-3#5) ∧ decode 0x9000#16 = .notReg 0 0 ∧
    decode 0xF125#16 = .trapHalt ∧ decode 0xFFFF#16 = .trap 0xFF#8 ∧ decode 0x4FFF#16 = .jsr (-1#11) ∧
    decode 0x47C0#16 = .jsrr 7 ∧ decode 0x0000#16 = .br false false false 0#9 ∧ decode 0xC3FF#16 = .jmp 7 ∧
    decode 0x8000#16 = .reserved8 ∧ decode 0xD123#16 = .reservedD

/-- R69: decoding the encoder's word gives the instruction back with every operand, for every instruction that has an
encoder function and for `encTRAP` at every vector. The converse is the spec's own inference ("The converse holds only
for canonical words"): encoding a decoded word gives the word back exactly when its ignored bits hold the canonical values
of R67 (never for a reserved opcode, which has no encoder function). -/
def Obligations.DecodeEncodeRoundTrip : Prop :=
  (∀ i : Instr, i.wellFormed = true → i.isReserved = false → ∃ w, encode i = some w ∧ decode w = i) ∧
    (∀ v : BitVec 8, ∃ w, encTRAP v.toNat = .ok w ∧ decode w = (serviceOf v).getD (.trap v)) ∧
    (∀ w : Word, (decode w).isReserved = false →
      (encode (decode w) = some w ↔ w &&& ignoredMask w = canonicalIgnored w))

/-- R61: changing any of the bits that the decoder ignores changes nothing. -/
def Obligations.DecodeIgnoresUnusedBits : Prop :=
  ∀ w x : Word, x &&& ignoredMask w = x → decode (w ^^^ x) = decode w

/-- R63, R86: the six vectors name the six services, every other vector decodes too, and it raises BadTrap when
executed; `encTRAP` takes every vector 0..255 and no other, and the named encoders give the services' words. -/
def Obligations.TrapVectorsNameServices : Prop :=
  (∀ w : Word, fieldNat w 15 12 = 0xF →
      decode w = (serviceOf (fieldImm w 8)).getD (.trap (fieldImm w 8))) ∧
    (∀ v : BitVec 8, serviceOf v = none ↔ v.toNat < 0x20 ∨ 0x25 < v.toNat) ∧
    (∀ (v : BitVec 8) (s : State), serviceOf v = none → exec (.trap v) s = .next (s.afterRaise (.badTrap v))) ∧
    (∀ x : Int, encTRAP x =
      if x < 0 ∨ 255 < x then .error (.fieldOverflow 8 x) else .ok (BitVec.ofInt 16 (0xF000 + x))) ∧
    encGETC = 0xF020#16 ∧ encOUT = 0xF021#16 ∧ encPUTS = 0xF022#16 ∧ encIN = 0xF023#16 ∧ encPUTSP = 0xF024#16 ∧
    encHALT = 0xF025#16

/-- R60: every word decodes to one well-formed term, and every well-formed term is the decoding of a word. -/
def Obligations.DecodeIsOntoWellFormed : Prop :=
  (∀ w : Word, (decode w).wellFormed = true) ∧ ∀ i : Instr, i.wellFormed = true → ∃ w : Word, decode w = i

/-- R52: the width check, the range check and the packed pattern. -/
def Obligations.PackSignedChecksRange : Prop :=
  ∀ (v : Int) (n : Nat),
    ((n < 2 ∨ 64 < n) → packSigned v n = .error (.fieldOverflow n v)) ∧
    (2 ≤ n → n ≤ 64 → (v < -2 ^ (n - 1) ∨ 2 ^ (n - 1) - 1 < v) → packSigned v n = .error (.fieldOverflow n v)) ∧
    (2 ≤ n → n ≤ 64 → -2 ^ (n - 1) ≤ v → v ≤ 2 ^ (n - 1) - 1 →
      ∃ f : Nat, packSigned v n = .ok f ∧ f < 2 ^ n ∧ (f : Int) = v % 2 ^ n)

/-- R54: packing and unpacking are inverse to each other; that the other direction also holds is the spec's own inference
from R52 and R53. -/
def Obligations.CodecRoundTrip : Prop :=
  (∀ (v : Int) (n : Nat), 2 ≤ n → n ≤ 64 → -2 ^ (n - 1) ≤ v → v ≤ 2 ^ (n - 1) - 1 →
      ∃ f : Nat, packSigned v n = .ok f ∧ unpackSigned f n = v) ∧
    ∀ f n : Nat, 2 ≤ n → n ≤ 64 → f < 2 ^ n → packSigned (unpackSigned f n) n = .ok f

/-- R70 to R73: `encADD` and `encAND` in both forms. The first operand out of range is reported, in the order dr, sr1,
then the second source; in range, the word is the sum of its fields. -/
def Obligations.EncodeOperateChecksOperandsInOrder : Prop :=
  ∀ dr sr1 x : Int, ∀ f ∈ [(encADD, (0x1000 : Int)), (encAND, 0x5000)],
    (f.1 dr sr1 (.reg x) =
      if dr < 0 ∨ 7 < dr then .error (.fieldOverflow 3 dr)
      else if sr1 < 0 ∨ 7 < sr1 then .error (.fieldOverflow 3 sr1)
      else if x < 0 ∨ 7 < x then .error (.fieldOverflow 3 x)
      else .ok (BitVec.ofInt 16 (f.2 + dr * 512 + sr1 * 64 + x))) ∧
    (f.1 dr sr1 (.imm x) =
      if dr < 0 ∨ 7 < dr then .error (.fieldOverflow 3 dr)
      else if sr1 < 0 ∨ 7 < sr1 then .error (.fieldOverflow 3 sr1)
      else if x < -16 ∨ 15 < x then .error (.fieldOverflow 5 x)
      else .ok (BitVec.ofInt 16 (f.2 + 0x20 + dr * 512 + sr1 * 64 + x % 32)))

/-- R74 to R85: the other encoder functions, each with its range checks in the order of its operands; in range, the word
is the sum of its fields. The entry point that accepts either tag, `encJumpSub`, is JSR for an offset and JSRR for a
register, so that the tag sets `w[11]` (R68). -/
def Obligations.EncoderFunctionsOfEachFormat : Prop :=
  ∀ (n z p : Bool) (r b x : Int),
    (encNOT r b =
      if r < 0 ∨ 7 < r then .error (.fieldOverflow 3 r)
      else if b < 0 ∨ 7 < b then .error (.fieldOverflow 3 b)
      else .ok (BitVec.ofInt 16 (0x903F + r * 512 + b * 64))) ∧
    (encBR n z p x =
      if x < -256 ∨ 255 < x then .error (.fieldOverflow 9 x)
      else .ok (BitVec.ofInt 16 (n.toInt * 2048 + z.toInt * 1024 + p.toInt * 512 + x % 512))) ∧
    (∀ f ∈ [(encJMP, (0xC000 : Int)), (encJSRR, 0x4000), (fun base => encJumpSub (.reg base), 0x4000)],
      f.1 b = if b < 0 ∨ 7 < b then .error (.fieldOverflow 3 b) else .ok (BitVec.ofInt 16 (f.2 + b * 64))) ∧
    (∀ f ∈ [encJSR, fun off => encJumpSub (.imm off)],
      f x =
        if x < -1024 ∨ 1023 < x then .error (.fieldOverflow 11 x)
        else .ok (BitVec.ofInt 16 (0x4800 + x % 2048))) ∧
    (∀ f ∈ [(encLD, (0x2000 : Int)), (encLDI, 0xA000), (encLEA, 0xE000), (encST, 0x3000), (encSTI, 0xB000)],
      f.1 r x =
        if r < 0 ∨ 7 < r then .error (.fieldOverflow 3 r)
        else if x < -256 ∨ 255 < x then .error (.fieldOverflow 9 x)
        else .ok (BitVec.ofInt 16 (f.2 + r * 512 + x % 512))) ∧
    ∀ f ∈ [(encLDR, (0x6000 : Int)), (encSTR, 0x7000)],
      f.1 r b x =
        if r < 0 ∨ 7 < r then .error (.fieldOverflow 3 r)
        else if b < 0 ∨ 7 < b then .error (.fieldOverflow 3 b)
        else if x < -32 ∨ 31 < x then .error (.fieldOverflow 6 x)
        else .ok (BitVec.ofInt 16 (f.2 + r * 512 + b * 64 + x % 64))

/-! ## The instruction cycle -/

/-- A step runs the decoded instruction: `exec` of it on the state whose PC has moved past its one word (R95, R96).
Nothing else surrounds `exec`: the retire of R97 is the end of each meaning. -/
def Obligations.StepRunsDecodedInstruction : Prop :=
  ∀ (s : State) (i : Instr), s.runState = .running none → s.BelowCap → uval s.pc < s.memWords →
    decode (s.mem.read (uval s.pc)) = i → i.wellFormed = true → step s = exec i { s with pc := s.pc + 1#16 }

/-- R93: a step begins exactly when the core is Running with no pending read; else the call is refused. -/
def Obligations.StepRefusedUnlessEnabled : Prop :=
  ∀ s : State, (∃ r, step s = .refused r) ↔ s.runState ≠ .running none

/-- R94: at the cap the core halts with StepLimit, fetches nothing and changes nothing but the run state and the error. -/
def Obligations.StepCapHalts : Prop :=
  ∀ (s : State) (limit : Nat), s.runState = .running none → s.stepLimit = some limit → limit ≤ s.steps →
    step s = .next (s.afterRaise .stepLimit)

/-- R95: the fetch increments PC, which wraps at 0xFFFF while `seq` does not, and a fetch from an address with no cell
raises BadOpcode with no opcode, PC incremented. -/
def Obligations.FetchIncrementsAndChecksCell : Prop :=
  (∀ a : Word, uval (a + 1#16) = (uval a + 1) % 65536 ∧ seqOf (a + 1#16) = uval a + 1) ∧
    ∀ s : State, s.runState = .running none → s.BelowCap →
      (s.memWords ≤ uval s.pc →
        step s = .next (State.afterRaise { s with pc := s.pc + 1#16 } (.badOpcode none))) ∧
      (uval s.pc < s.memWords →
        step s = exec (decode (s.mem.read (uval s.pc))) { s with pc := s.pc + 1#16 })

/-- R43, the spec's inference from R31 and R41: a store is seen by the next fetch of that cell, and by no fetch of
another. -/
def Obligations.FetchSeesStore : Prop :=
  ∀ (s t : State) (a v : Word), s.memWrite a v = .ok t →
    t.fetch a = some v ∧ ∀ b : Word, b ≠ a → t.fetch b = s.fetch b

/-! ## Operate instructions -/

/-- R100: ADD, register form: its encoding and its effect; DR may equal a source. -/
def Obligations.AddRegisterForm : Prop :=
  (∀ w : Word, w &&& 0xF020#16 = 0x1000#16 →
      decode w = .addReg (fieldReg w 11 9) (fieldReg w 8 6) (fieldReg w 2 0)) ∧
    ∀ (dr sr1 sr2 : Reg) (s : State),
      exec (.addReg dr sr1 sr2) s =
        .next (s.afterResult dr (BitVec.ofNat 16 ((uval (s.reg sr1) + uval (s.reg sr2)) % 65536)))

/-- R101: ADD, immediate form. -/
def Obligations.AddImmediateForm : Prop :=
  (∀ w : Word, w &&& 0xF020#16 = 0x1020#16 →
      decode w = .addImm (fieldReg w 11 9) (fieldReg w 8 6) (fieldImm w 5)) ∧
    ∀ (dr sr1 : Reg) (imm : BitVec 5) (s : State),
      exec (.addImm dr sr1 imm) s = .next (s.afterResult dr (s.reg sr1 + BitVec.ofInt 16 imm.toInt))

/-- R102: AND, register form. -/
def Obligations.AndRegisterForm : Prop :=
  (∀ w : Word, w &&& 0xF020#16 = 0x5000#16 →
      decode w = .andReg (fieldReg w 11 9) (fieldReg w 8 6) (fieldReg w 2 0)) ∧
    ∀ (dr sr1 sr2 : Reg) (s : State),
      exec (.andReg dr sr1 sr2) s = .next (s.afterResult dr (s.reg sr1 &&& s.reg sr2))

/-- R103: AND, immediate form. -/
def Obligations.AndImmediateForm : Prop :=
  (∀ w : Word, w &&& 0xF020#16 = 0x5020#16 →
      decode w = .andImm (fieldReg w 11 9) (fieldReg w 8 6) (fieldImm w 5)) ∧
    ∀ (dr sr1 : Reg) (imm : BitVec 5) (s : State),
      exec (.andImm dr sr1 imm) s = .next (s.afterResult dr (s.reg sr1 &&& BitVec.ofInt 16 imm.toInt))

/-- R104: NOT. -/
def Obligations.NotComplements : Prop :=
  (∀ w : Word, w &&& 0xF000#16 = 0x9000#16 → decode w = .notReg (fieldReg w 11 9) (fieldReg w 8 6)) ∧
    ∀ (dr sr : Reg) (s : State), exec (.notReg dr sr) s = .next (s.afterResult dr (~~~(s.reg sr)))

/-! ## Control transfer -/

/-- R110: BR is taken when a mask bit meets the flag at its place; it changes nothing but PC, and retires. -/
def Obligations.BranchTakenWhenMaskMeetsFlag : Prop :=
  (∀ w : Word, w &&& 0xF000#16 = 0x0000#16 →
      decode w = .br (fieldNat w 11 11 = 1) (fieldNat w 10 10 = 1) (fieldNat w 9 9 = 1) (fieldImm w 9)) ∧
    ∀ (n z p : Bool) (off : BitVec 9) (s : State),
      exec (.br n z p off) s =
        if (n && s.cond[2]) || (z && s.cond[1]) || (p && s.cond[0]) then
          .next (s.afterJump (s.pc + BitVec.ofInt 16 off.toInt))
        else .next s.afterSeq

/-- R111: JMP. -/
def Obligations.JumpThroughRegister : Prop :=
  (∀ w : Word, w &&& 0xF000#16 = 0xC000#16 → decode w = .jmp (fieldReg w 8 6)) ∧
    ∀ (base : Reg) (s : State), exec (.jmp base) s = .next (s.afterJump (s.reg base))

/-- R112: JSR saves the address of the next instruction in R7 and jumps relative to it. -/
def Obligations.JumpSubroutineRelative : Prop :=
  (∀ w : Word, w &&& 0xF800#16 = 0x4800#16 → decode w = .jsr (fieldImm w 11)) ∧
    ∀ (off : BitVec 11) (s : State),
      exec (.jsr off) s =
        .next { s.afterJump (s.pc + BitVec.ofInt 16 off.toInt) with regs := s.regs.set 7 s.pc }

/-- R113: JSRR writes the link first, so `JSRR R7` goes to the next instruction. -/
def Obligations.JumpSubroutineRegister : Prop :=
  (∀ w : Word, w &&& 0xF800#16 = 0x4000#16 → decode w = .jsrr (fieldReg w 8 6)) ∧
    ∀ (base : Reg) (s : State),
      exec (.jsrr base) s =
        .next { s.afterJump (if base = 7 then s.pc else s.reg base) with regs := s.regs.set 7 s.pc }

/-! ## Loads and stores -/

/-- R120: LD. -/
def Obligations.LoadPcRelative : Prop :=
  (∀ w : Word, w &&& 0xF000#16 = 0x2000#16 → decode w = .ld (fieldReg w 11 9) (fieldImm w 9)) ∧
    ∀ (dr : Reg) (off : BitVec 9) (s : State) (ea : Word), ea = s.pc + BitVec.ofInt 16 off.toInt →
      (uval ea < s.memWords → exec (.ld dr off) s = .next (s.afterResult dr (s.mem.read (uval ea)))) ∧
      (s.memWords ≤ uval ea → exec (.ld dr off) s = .next (s.afterRaise (.unmappedAccess ea)))

/-- R121: LDI; the first read that fails is the one reported. -/
def Obligations.LoadIndirect : Prop :=
  (∀ w : Word, w &&& 0xF000#16 = 0xA000#16 → decode w = .ldi (fieldReg w 11 9) (fieldImm w 9)) ∧
    ∀ (dr : Reg) (off : BitVec 9) (s : State) (pa ea : Word), pa = s.pc + BitVec.ofInt 16 off.toInt →
      ea = s.mem.read (uval pa) →
      (uval pa < s.memWords → uval ea < s.memWords →
        exec (.ldi dr off) s = .next (s.afterResult dr (s.mem.read (uval ea)))) ∧
      (s.memWords ≤ uval pa → exec (.ldi dr off) s = .next (s.afterRaise (.unmappedAccess pa))) ∧
      (uval pa < s.memWords → s.memWords ≤ uval ea →
        exec (.ldi dr off) s = .next (s.afterRaise (.unmappedAccess ea)))

/-- R122: LDR; DR may be BaseR, since the address is formed before the write. -/
def Obligations.LoadBaseOffset : Prop :=
  (∀ w : Word, w &&& 0xF000#16 = 0x6000#16 →
      decode w = .ldr (fieldReg w 11 9) (fieldReg w 8 6) (fieldImm w 6)) ∧
    ∀ (dr base : Reg) (off : BitVec 6) (s : State) (ea : Word), ea = s.reg base + BitVec.ofInt 16 off.toInt →
      (uval ea < s.memWords → exec (.ldr dr base off) s = .next (s.afterResult dr (s.mem.read (uval ea)))) ∧
      (s.memWords ≤ uval ea → exec (.ldr dr base off) s = .next (s.afterRaise (.unmappedAccess ea)))

/-- R123: LEA sets flags and touches no memory, so no address faults. -/
def Obligations.LoadEffectiveAddress : Prop :=
  (∀ w : Word, w &&& 0xF000#16 = 0xE000#16 → decode w = .lea (fieldReg w 11 9) (fieldImm w 9)) ∧
    ∀ (dr : Reg) (off : BitVec 9) (s : State),
      exec (.lea dr off) s = .next (s.afterResult dr (s.pc + BitVec.ofInt 16 off.toInt))

/-- R124: ST; every other cell reads as before, and nothing but memory and the retire changes. -/
def Obligations.StorePcRelative : Prop :=
  (∀ w : Word, w &&& 0xF000#16 = 0x3000#16 → decode w = .st (fieldReg w 11 9) (fieldImm w 9)) ∧
    ∀ (sr : Reg) (off : BitVec 9) (s : State) (ea : Word), ea = s.pc + BitVec.ofInt 16 off.toInt →
      (uval ea < s.memWords → ∃ t, exec (.st sr off) s = .next t ∧ s.afterStore ea (s.reg sr) t) ∧
      (s.memWords ≤ uval ea → exec (.st sr off) s = .next (s.afterRaise (.unmappedAccess ea)))

/-- R125: STI; nothing is written when the pointer read or the write fails. -/
def Obligations.StoreIndirect : Prop :=
  (∀ w : Word, w &&& 0xF000#16 = 0xB000#16 → decode w = .sti (fieldReg w 11 9) (fieldImm w 9)) ∧
    ∀ (sr : Reg) (off : BitVec 9) (s : State) (pa ea : Word), pa = s.pc + BitVec.ofInt 16 off.toInt →
      ea = s.mem.read (uval pa) →
      (uval pa < s.memWords → uval ea < s.memWords →
        ∃ t, exec (.sti sr off) s = .next t ∧ s.afterStore ea (s.reg sr) t) ∧
      (s.memWords ≤ uval pa → exec (.sti sr off) s = .next (s.afterRaise (.unmappedAccess pa))) ∧
      (uval pa < s.memWords → s.memWords ≤ uval ea →
        exec (.sti sr off) s = .next (s.afterRaise (.unmappedAccess ea)))

/-- R126: STR. -/
def Obligations.StoreBaseOffset : Prop :=
  (∀ w : Word, w &&& 0xF000#16 = 0x7000#16 →
      decode w = .str (fieldReg w 11 9) (fieldReg w 8 6) (fieldImm w 6)) ∧
    ∀ (sr base : Reg) (off : BitVec 6) (s : State) (ea : Word), ea = s.reg base + BitVec.ofInt 16 off.toInt →
      (uval ea < s.memWords → ∃ t, exec (.str sr base off) s = .next t ∧ s.afterStore ea (s.reg sr) t) ∧
      (s.memWords ≤ uval ea → exec (.str sr base off) s = .next (s.afterRaise (.unmappedAccess ea)))

/-! ## TRAP services and reserved opcodes -/

/-- R141: GETC takes the head of the queue into R0, with Z for 0 and P otherwise, or suspends on an empty queue with
nothing written: no step can begin then, and a pushed byte ends the instruction as a queued one does. -/
def Obligations.GetcReadsOrSuspends : Prop :=
  (∀ w : Word, w &&& 0xF0FF#16 = 0xF020#16 → decode w = .trapGetc) ∧
    ∀ s : State,
      (∀ c rest, s.inq = c :: rest →
        exec .trapGetc s = .next
          { s.afterSeq with
            regs := s.regs.set 0 (BitVec.ofNat 16 c.toNat)
            cond := if c = 0#8 then 0x0002#16 else 0x0001#16
            inq := rest }) ∧
      (s.inq = [] → ∃ u, exec .trapGetc s = .next u ∧ u = { s with runState := .running (some .getc) } ∧
        (∃ r, step u = .refused r) ∧
        ∀ c : Byte, u.push c.toNat = .next
          { s with
            regs := s.regs.set 0 (BitVec.ofNat 16 c.toNat)
            cond := if c = 0#8 then 0x0002#16 else 0x0001#16
            steps := s.steps + 1
            runState := if seqOf s.pc < s.memWords then .running none else .halted .endOfMemory })

/-- R142: OUT emits the low byte of R0 as one chunk. The sink's calls are the model's field `chunks` (log entry 7), here
and below. -/
def Obligations.OutEmitsLowByte : Prop :=
  (∀ w : Word, w &&& 0xF0FF#16 = 0xF021#16 → decode w = .trapOut) ∧
    ∀ s : State,
      exec .trapOut s = .next
        { s.afterSeq with
          outlog := s.outlog ++ [BitVec.ofNat 8 (uval (s.reg 0))]
          chunks := if s.sinkAttached then s.chunks ++ [[BitVec.ofNat 8 (uval (s.reg 0))]] else s.chunks }

/-- R143: PUTS emits, in one chunk, the low byte of each cell from R0 up to the first word 0; an address with no cell
before it raises UnmappedAccess with nothing emitted; a full memory with no word 0 never completes, which the model
shows as a fault (log entry 9). -/
def Obligations.PutsWritesString : Prop :=
  (∀ w : Word, w &&& 0xF0FF#16 = 0xF022#16 → decode w = .trapPuts) ∧
    ∀ (s : State) (n : Nat) (out : List Byte), n < 65536 → (∀ i < n, s.stringGoesOn i) →
      out = (List.range n).map (fun i => BitVec.ofNat 8 (uval (s.stringCell i))) →
      ((uval (s.reg 0) + n) % 65536 < s.memWords → s.stringCell n = 0x0000#16 →
        exec .trapPuts s = .next
          { s.afterSeq with
            outlog := s.outlog ++ out
            chunks := if s.sinkAttached then s.chunks ++ [out] else s.chunks }) ∧
      (s.memWords ≤ (uval (s.reg 0) + n) % 65536 →
        exec .trapPuts s = .next (s.afterRaise (.unmappedAccess (s.reg 0 + BitVec.ofNat 16 n)))) ∧
      (s.stringGoesOn n → n = 65535 → exec .trapPuts s = .fault .unterminatedString)

/-- R144: IN emits the prompt first, as one chunk, and then reads as GETC does, now or when a byte is pushed. -/
def Obligations.InPromptsThenReads : Prop :=
  (∀ w : Word, w &&& 0xF0FF#16 = 0xF023#16 → decode w = .trapIn) ∧
    ∀ (s : State) (out : List Byte) (chunks : List (List Byte)), out = s.outlog ++ s.inPrompt →
      chunks = (if s.sinkAttached then s.chunks ++ [s.inPrompt] else s.chunks) →
      (∀ c rest, s.inq = c :: rest →
        exec .trapIn s = .next
          { s.afterSeq with
            regs := s.regs.set 0 (BitVec.ofNat 16 c.toNat)
            cond := if c = 0#8 then 0x0002#16 else 0x0001#16
            inq := rest
            outlog := out
            chunks := chunks }) ∧
      (s.inq = [] → ∃ u, exec .trapIn s = .next u ∧
        u = { s with runState := .running (some .inChar), outlog := out, chunks := chunks } ∧
        (∃ r, step u = .refused r) ∧
        ∀ c : Byte, u.push c.toNat = .next
          { s with
            regs := s.regs.set 0 (BitVec.ofNat 16 c.toNat)
            cond := if c = 0#8 then 0x0002#16 else 0x0001#16
            steps := s.steps + 1
            runState := if seqOf s.pc < s.memWords then .running none else .halted .endOfMemory
            outlog := out
            chunks := chunks })

/-- R145: PUTSP emits each cell's low byte and then its high byte unless that is zero; the rest as for PUTS. -/
def Obligations.PutspWritesPackedString : Prop :=
  (∀ w : Word, w &&& 0xF0FF#16 = 0xF024#16 → decode w = .trapPutsp) ∧
    ∀ (s : State) (n : Nat) (out : List Byte), n < 65536 → (∀ i < n, s.stringGoesOn i) →
      out = (List.range n).flatMap (fun i =>
        BitVec.ofNat 8 (uval (s.stringCell i)) ::
          if uval (s.stringCell i) < 256 then [] else [BitVec.ofNat 8 (uval (s.stringCell i) / 256)]) →
      ((uval (s.reg 0) + n) % 65536 < s.memWords → s.stringCell n = 0x0000#16 →
        exec .trapPutsp s = .next
          { s.afterSeq with
            outlog := s.outlog ++ out
            chunks := if s.sinkAttached then s.chunks ++ [out] else s.chunks }) ∧
      (s.memWords ≤ (uval (s.reg 0) + n) % 65536 →
        exec .trapPutsp s = .next (s.afterRaise (.unmappedAccess (s.reg 0 + BitVec.ofNat 16 n)))) ∧
      (s.stringGoesOn n → n = 65535 → exec .trapPutsp s = .fault .unterminatedString)

/-- R146: HALT halts with success, retires nothing and changes nothing else. -/
def Obligations.HaltEndsRunWithSuccess : Prop :=
  (∀ w : Word, w &&& 0xF0FF#16 = 0xF025#16 → decode w = .trapHalt) ∧
    ∀ s : State, ∃ t, exec .trapHalt s = .next t ∧ t = { s with runState := .halted .halt } ∧
      t.status = some .success

/-- R147: TRAP with any other vector raises BadTrap with the vector and changes nothing else. -/
def Obligations.UndefinedVectorRaisesBadTrap : Prop :=
  (∀ w : Word, w &&& 0xF000#16 = 0xF000#16 → fieldNat w 7 0 < 0x20 ∨ 0x25 < fieldNat w 7 0 →
      decode w = .trap (fieldImm w 8)) ∧
    ∀ (v : BitVec 8) (s : State), v.toNat < 0x20 ∨ 0x25 < v.toNat →
      ∃ t, exec (.trap v) s = .next t ∧ t = s.afterRaise (.badTrap v) ∧ t.status = some .failure

/-- R170, R171: the two reserved opcodes raise BadOpcode with the opcode and change nothing else, whatever their other
bits hold, and have no encoder function. -/
def Obligations.ReservedOpcodesRaiseBadOpcode : Prop :=
  (∀ w : Word, w &&& 0xF000#16 = 0x8000#16 → decode w = .reserved8) ∧
    (∀ w : Word, w &&& 0xF000#16 = 0xD000#16 → decode w = .reservedD) ∧
    (∀ s : State, ∃ t, exec .reserved8 s = .next t ∧ t = s.afterRaise (.badOpcode (some 8#4)) ∧
      t.status = some .failure) ∧
    (∀ s : State, ∃ t, exec .reservedD s = .next t ∧ t = s.afterRaise (.badOpcode (some 13#4)) ∧
      t.status = some .failure) ∧
    encode .reserved8 = none ∧ encode .reservedD = none

/-! ## Whole-machine rules -/

/-- No instruction is refused, and only a string service stops: exactly when it walks a full memory with no word 0
(R143, R145, D29; that the hang is a fault is the model's choice, log entry 9). -/
def Obligations.OnlyUnterminatedStringsStop : Prop :=
  ∀ (i : Instr) (s : State), (∀ r, exec i s ≠ .refused r) ∧
    ((∃ f, exec i s = .fault f) ↔ (i = .trapPuts ∨ i = .trapPutsp) ∧ ∀ k < 65536, s.stringGoesOn k)

/-- R12: an instruction changes no general register but the one that the table of R12 gives it; in particular TRAP does
not write R7. The table is the spec's own inference from the instruction rules. -/
def Obligations.OnlyTableRegisterWritten : Prop :=
  ∀ (i : Instr) (s t : State) (r : Reg), exec i s = .next t → i.regWritten ≠ some r → t.reg r = s.reg r

/-- R18: a flag-setting instruction that retires leaves COND by the sign of the register it wrote; every other
instruction, and one that suspends or halts with a condition, leaves COND as it was. -/
def Obligations.OnlyFlagSettersChangeCond : Prop :=
  ∀ (i : Instr) (s t : State), exec i s = .next t →
    (∀ dr, i.flagSource = some dr →
      (t.steps = s.steps + 1 ∧ t.cond = signCond (t.reg dr)) ∨ (t.steps = s.steps ∧ t.cond = s.cond)) ∧
    (i.flagSource = none → t.cond = s.cond)

/-- The frame of memory: for every cell but the one at the address that the instruction stores to, the cell reads as
before; the size of memory does not change (R124 to R126; 43_trap.md R140). -/
def Obligations.OnlyStoresChangeMemory : Prop :=
  ∀ (i : Instr) (s t : State), exec i s = .next t →
    t.memWords = s.memWords ∧
    (∀ ea, storeAddress s i = some ea → ∀ a, a ≠ uval ea → t.mem.read a = s.mem.read a) ∧
    (storeAddress s i = none → ∀ a, t.mem.read a = s.mem.read a)

/-- R14: the PC that each instruction leaves. The table is the spec's own inference from the instruction rules. -/
def Obligations.PcFollowsTable : Prop :=
  ∀ (i : Instr) (s t : State), exec i s = .next t → t.pc = pcAfter s i

/-- R96: from a Running core, an instruction that completes retires, raises a condition, halts, or suspends on input. -/
def Obligations.ExecutionEndsInFourWays : Prop :=
  ∀ (i : Instr) (s t : State), s.runState = .running none → exec i s = .next t →
    (t.steps = s.steps + 1 ∧ t.error = s.error ∧
      (t.runState = .running none ∨ t.runState = .halted .endOfMemory)) ∨
    (∃ c, t = s.afterRaise c) ∨
    (i = .trapHalt ∧ t = { s with runState := .halted .halt }) ∨
    (s.inq = [] ∧ t.inq = [] ∧ t.steps = s.steps ∧
      (i = .trapGetc ∧ t.runState = .running (some .getc) ∨ i = .trapIn ∧ t.runState = .running (some .inChar)))

/-- R188, R189: a step that ends in a condition has had no effect but the PC increment of its fetch (none under the
step cap), the error and the halt with failure; and no step follows it (R189, the spec's own inference). -/
def Obligations.ConditionsArePrecise : Prop :=
  ∀ (s t : State) (c : Condition), step s = .next t → t.runState = .halted (.condition c) →
    t = State.afterRaise { s with pc := if c = .stepLimit then s.pc else s.pc + 1#16 } c ∧
      t.status = some .failure ∧ ∃ r, step t = .refused r

/-- R180: what each condition that a step can raise says of the state it was raised in; FieldOverflow and Cancelled come
from no step (R183, R186). -/
def Obligations.ConditionsHaveTheirCause : Prop :=
  ∀ (s t : State) (c : Condition), step s = .next t → t.runState = .halted (.condition c) →
    match c with
    | .badOpcode none => s.memWords ≤ uval s.pc
    | .badOpcode (some op) =>
      ∃ w, s.fetch s.pc = some w ∧ op.toNat = fieldNat w 15 12 ∧ (op.toNat = 8 ∨ op.toNat = 13)
    | .badTrap v =>
      ∃ w, s.fetch s.pc = some w ∧ fieldNat w 15 12 = 15 ∧ v = fieldImm w 8 ∧ (v.toNat < 0x20 ∨ 0x25 < v.toNat)
    | .unmappedAccess a => s.memWords ≤ uval a
    | .stepLimit => ∃ limit, s.stepLimit = some limit ∧ limit ≤ s.steps
    | .fieldOverflow _ _ => False
    | .cancelled => False

/-- R150 to R152 (`chunks`: log entry 7): the log only grows, by one chunk of an output service, and the sink gets exactly
that chunk; input is taken only by GETC and IN, from the head; the run options never change. -/
def Obligations.IoFrameOfInstructions : Prop :=
  ∀ (i : Instr) (s t : State), exec i s = .next t →
    ((t.outlog = s.outlog ∧ t.chunks = s.chunks) ∨
      ((i = .trapOut ∨ i = .trapPuts ∨ i = .trapIn ∨ i = .trapPutsp) ∧
        ∃ chunk, t.outlog = s.outlog ++ chunk ∧
          t.chunks = if s.sinkAttached then s.chunks ++ [chunk] else s.chunks)) ∧
    (t.inq = s.inq ∨ ((i = .trapGetc ∨ i = .trapIn) ∧ ∃ c, s.inq = c :: t.inq)) ∧
    t.stepLimit = s.stepLimit ∧ t.inPrompt = s.inPrompt ∧ t.sinkAttached = s.sinkAttached

/-- R18, R194: COND is read only by BR, and no instruction reads the step counter: another COND, or another count,
before changes nothing after but that COND or that count. -/
def Obligations.OnlyBranchReadsCondAndNoneReadsSteps : Prop :=
  ∀ (i : Instr) (s t : State), exec i s = .next t →
    (∀ cond : Word, (∀ n z p off, i ≠ .br n z p off) →
      ∃ u, exec i { s with cond := cond } = .next u ∧ { u with cond := t.cond } = t) ∧
    ∀ k : Nat, exec i { s with steps := k } = .next { t with steps := k + (t.steps - s.steps) }

/-- R200: the run state changes only by the transitions of the table, and the status follows it. -/
def Obligations.RunStateFollowsTransitionTable : Prop :=
  ∀ (s t : State) (c : HostCall), s.call c = .next t →
    (match c with
      | .start _ _ => (∀ p, s.runState ≠ .running p) ∧ t.runState = .running none
      | .step => s.runState = .running none ∧
        (t.runState = .running none ∨ (∃ svc, t.runState = .running (some svc) ∧ s.inq = []) ∨
          ∃ cause, t.runState = .halted cause ∧ cause ≠ .condition .cancelled)
      | .push _ =>
        (∃ svc, s.runState = .running (some svc) ∧
          (t.runState = .running none ∨ t.runState = .halted .endOfMemory)) ∨
        (s.runState = .running none ∧ t.runState = .running none)
      | .abort => (∃ p, s.runState = .running p) ∧ t.runState = .halted (.condition .cancelled)) ∧
    (t.status = none ↔ ∃ p, t.runState = .running p) ∧
    (t.status = some .success ↔ t.runState = .halted .halt ∨ t.runState = .halted .endOfMemory)

/-! ## Invariants -/

/-- Every step keeps the invariant of Safety.lean, which the spec's rules R16, R23, R30, R94, R97, R148, R151 and R152 imply
and which adds the canonical form of the model's memory (log entry 1). -/
def Obligations.StepKeepsInvariant : Prop :=
  ∀ s t : State, s.Inv → step s = .next t → t.Inv

/-- Every sequence of host calls keeps the invariant: start, step, push and abort, in any order (R200). -/
def Obligations.HostCallsKeepInvariant : Prop :=
  ∀ (s t : State) (cs : List HostCall), s.Inv → s.calls cs = .next t → t.Inv

/-- The invariant holds after reset and before the first start (what an Idle core holds is log entry 15). -/
def Obligations.ResetMeetsInvariant : Prop :=
  State.reset.Inv ∧ State.powerOn.Inv

/-- Only the first fetch of a run can find no cell, and only in a memory of at most 0x3000 words (conflict C1; R97). -/
def Obligations.InvalidFetchOnlyAtRunStart : Prop :=
  ∀ s t : State, s.Inv → step s = .next t → t.error = some (.badOpcode none) →
    s.steps = 0 ∧ s.pc = 0x3000#16 ∧ s.memWords ≤ 0x3000

/-! ## Reset and the host's calls -/

/-- R26: what reset leaves. That `State.reset` is the state after a start with an empty program and the default options
is the model's choice (log entry 3), and so is the default step cap (log entry 4). -/
def Obligations.ResetLeavesSpecValues : Prop :=
  (∀ r, State.reset.reg r = 0x0000#16) ∧ State.reset.pc = 0x3000#16 ∧ State.reset.cond = 0x0000#16 ∧
    (∀ a, State.reset.mem.read a = 0x0000#16) ∧ State.reset.memWords = 65536 ∧
    State.reset.runState = .running none ∧ State.reset.inq = [] ∧ State.reset.outlog = [] ∧
    State.reset.error = none ∧ State.reset.steps = 0 ∧ State.powerOn.start [] {} = .next State.reset

/-- R201, R203 to R205: what `start` leaves from Idle or Halted for a legal memory size: fresh registers and counters, low
memory cut at 3000 words and at the memory size, the image from 0x3000 cut at the memory size, zero elsewhere. -/
def Obligations.StartResetsAndLoads : Prop :=
  ∀ (s : State) (program : List Word) (o : Options), (∀ p, s.runState ≠ .running p) →
    1 ≤ o.memWords → o.memWords ≤ 65536 →
    ∃ t, s.start program o = .next t ∧ (∀ r, t.reg r = 0x0000#16) ∧ t.pc = 0x3000#16 ∧ t.cond = 0x0000#16 ∧
      t.runState = .running none ∧ t.inq = o.input0 ∧ t.outlog = [] ∧ t.error = none ∧ t.steps = 0 ∧
      t.memWords = o.memWords ∧ t.stepLimit = o.stepLimit ∧ t.inPrompt = o.inPrompt ∧
      t.sinkAttached = o.sinkAttached ∧
      ∀ a, t.mem.read a =
        if o.memWords ≤ a then 0x0000#16
        else if a < 3000 then o.lowmem.getD a 0x0000#16
        else if 0x3000 ≤ a then program.getD (a - 0x3000) 0x0000#16
        else 0x0000#16

/-- R202, R208, R30 with D9: `start` is rejected while Running and the run goes on unchanged; otherwise nothing of the
state before it carries over, and a memory size outside 1..65,536 is refused with no change of state. -/
def Obligations.StartRejectedOrForgets : Prop :=
  (∀ (s : State) (program : List Word) (o : Options) (p : Option Service), s.runState = .running p →
      s.start program o = .refused .startWhileRunning ∧ s.calls [.start program o] = .next s) ∧
    (∀ (s u : State) (program : List Word) (o : Options), (∀ p, s.runState ≠ .running p) →
      (∀ p, u.runState ≠ .running p) → s.start program o = u.start program o) ∧
    ∀ (s : State) (program : List Word) (o : Options), (∀ p, s.runState ≠ .running p) →
      o.memWords = 0 ∨ 65536 < o.memWords →
      s.start program o = .refused .memWordsOutOfRange ∧ s.calls [.start program o] = .next s

/-- R148, R149, R210: a pushed byte completes the pending read and retires it, without passing through the queue, or
joins the queue; a code that is no byte, and a push outside Running, is refused. -/
def Obligations.PushResumesOrEnqueues : Prop :=
  ∀ (s : State) (c : Int),
    (∀ svc, s.runState = .running (some svc) → 0 ≤ c → c ≤ 255 →
      s.push c = .next
        { s with
          regs := s.regs.set 0 (BitVec.ofInt 16 c)
          cond := if c = 0 then 0x0002#16 else 0x0001#16
          steps := s.steps + 1
          runState := if seqOf s.pc < s.memWords then .running none else .halted .endOfMemory }) ∧
    (s.runState = .running none → 0 ≤ c → c ≤ 255 →
      s.push c = .next { s with inq := s.inq ++ [BitVec.ofInt 8 c] }) ∧
    ((c < 0 ∨ 255 < c ∨ ∀ p, s.runState ≠ .running p) → ∃ r, s.push c = .refused r)

/-- R211: `abort` halts a Running core with Cancelled, and a pending read is abandoned with nothing written; in Idle and
Halted it changes nothing. -/
def Obligations.AbortCancelsRunningCore : Prop :=
  ∀ s : State,
    (∀ p, s.runState = .running p →
      ∃ t, s.abort = .next t ∧ t = s.afterRaise .cancelled ∧ t.status = some .failure) ∧
    ((∀ p, s.runState ≠ .running p) → s.calls [.abort] = .next s)

/-- R207: the snapshot of a halted core: its fields, with success exactly for the causes Halt and EndOfMemory, which by
the invariant is exactly when no error is recorded. -/
def Obligations.SnapshotCapturesHaltedState : Prop :=
  ∀ (s : State) (cause : Cause), s.Inv → s.runState = .halted cause →
    ∃ o, s.snapshot = some o ∧ o.error = s.error ∧ o.regs = s.regs ∧ o.pc = s.pc ∧ o.cond = s.cond ∧
      o.mem = s.mem ∧ o.memWords = s.memWords ∧ o.output = s.outlog ∧
      (o.status = .success ↔ cause = .halt ∨ cause = .endOfMemory) ∧ (o.status = .success ↔ o.error = none)

/-- R206, R207, R208, R217: `run` is rejected with the refusal of its start, or it makes the calls of the loop from the
started state: when it finishes, they lead to a halted state, whose snapshot is the outcome, and the core is Idle; when it
is unfinished, they lead to the Running state that it stopped in, with the rounds used up, or no answer left for a pending
read (log entry 21); when it is stuck, the step after them never completes (log entry 9). That the Idle core keeps the other
fields of the halted state is the model's choice at `State.toIdle` (log entry 15): R208 and D34 leave it open. -/
def Obligations.RunEndsIdleWithSnapshot : Prop :=
  ∀ (s : State) (rounds : Nat) (program : List Word) (o : Options) (answers : List WaitAnswer),
    match s.start program o with
    | .refused r => s.run rounds program o answers = .rejected r
    | .fault _ => False
    | .next started =>
      match s.run rounds program o answers with
      | .rejected _ => False
      | .finished outcome t => ∃ cs u, started.LoopCalls answers cs ∧ cs.length ≤ rounds ∧
          s.calls (.start program o :: cs) = .next u ∧ u.snapshot = some outcome ∧ t = u.toIdle
      | .unfinished t => ∃ cs, started.LoopCalls answers cs ∧ s.calls (.start program o :: cs) = .next t ∧
          (∃ p, t.runState = .running p) ∧
          (cs.length = rounds ∨
            cs.length < rounds ∧ (∃ svc, t.runState = .running (some svc)) ∧
              cs.filter (· ≠ .step) = answers.map WaitAnswer.toCall)
      | .stuck f => ∃ cs, started.LoopCalls answers cs ∧ cs.length < rounds ∧
          s.calls (.start program o :: (cs ++ [.step])) = .fault f
end

