-- ==== Sys2Proof/Laws/Decode.lean ====
section
/-! SUPPORT. The decoder's fields are the spec's fields `w[hi:lo]`, and the encoder's checked operands succeed on every
value that their field holds. -/

namespace Sys2Proof

/-! ## Fields -/

theorem bits_toNat (w : Word) (lo n : Nat) : (bits w lo n).toNat = w.toNat / 2 ^ lo % 2 ^ n := by
  simp [bits, Nat.shiftRight_eq_div_pow]

theorem opcodeOf_toNat (w : Word) : (opcodeOf w).toNat = fieldNat w 15 12 := bits_toNat w 12 4

theorem regField_eq (w : Word) (lo : Nat) : regField w lo = fieldReg w (lo + 2) lo := by
  apply Fin.ext
  simp [regField, fieldReg, fieldNat, bits_toNat, show lo + 2 + 1 - lo = 3 by omega]

theorem bits_eq_fieldImm (w : Word) {n : Nat} (h : 0 < n) : bits w 0 n = fieldImm w n := by
  apply BitVec.eq_of_toNat_eq
  simp [fieldImm, fieldNat, bits_toNat, Nat.sub_add_cancel h]

theorem getElem_eq_fieldNat (w : Word) (i : Nat) (h : i < 16) : w[i] = decide (fieldNat w i i = 1) := by
  simp [fieldNat, ← BitVec.getLsbD_eq_getElem, BitVec.getLsbD, Nat.testBit_eq_decide_div_mod_eq]

/-- A mask that is all ones over a field leaves the field (the match and mask of opcode_table.json). -/
theorem fieldNat_of_mask {w m v : Word} (h : w &&& m = v) (hi lo : Nat)
    (hm : m.extractLsb' lo (hi + 1 - lo) = BitVec.allOnes (hi + 1 - lo)) : fieldNat w hi lo = fieldNat v hi lo := by
  have key : ∀ x : Word, fieldNat x hi lo = (x.extractLsb' lo (hi + 1 - lo)).toNat := fun x =>
    (bits_toNat x lo (hi + 1 - lo)).symm
  have split : (w &&& m).extractLsb' lo (hi + 1 - lo) =
      w.extractLsb' lo (hi + 1 - lo) &&& m.extractLsb' lo (hi + 1 - lo) := by
    ext i hi'
    simp
  rw [key, key, ← h, split, hm, BitVec.and_allOnes]

/-- The decoder in terms of the spec's fields `w[hi:lo]` (R57, R60). -/
theorem decode_eq_fields (w : Word) : decode w =
    match fieldNat w 15 12 with
    | 0x0 => .br (fieldNat w 11 11 = 1) (fieldNat w 10 10 = 1) (fieldNat w 9 9 = 1) (fieldImm w 9)
    | 0x1 =>
      if fieldNat w 5 5 = 1 then .addImm (fieldReg w 11 9) (fieldReg w 8 6) (fieldImm w 5)
      else .addReg (fieldReg w 11 9) (fieldReg w 8 6) (fieldReg w 2 0)
    | 0x2 => .ld (fieldReg w 11 9) (fieldImm w 9)
    | 0x3 => .st (fieldReg w 11 9) (fieldImm w 9)
    | 0x4 => if fieldNat w 11 11 = 1 then .jsr (fieldImm w 11) else .jsrr (fieldReg w 8 6)
    | 0x5 =>
      if fieldNat w 5 5 = 1 then .andImm (fieldReg w 11 9) (fieldReg w 8 6) (fieldImm w 5)
      else .andReg (fieldReg w 11 9) (fieldReg w 8 6) (fieldReg w 2 0)
    | 0x6 => .ldr (fieldReg w 11 9) (fieldReg w 8 6) (fieldImm w 6)
    | 0x7 => .str (fieldReg w 11 9) (fieldReg w 8 6) (fieldImm w 6)
    | 0x8 => .reserved8
    | 0x9 => .notReg (fieldReg w 11 9) (fieldReg w 8 6)
    | 0xA => .ldi (fieldReg w 11 9) (fieldImm w 9)
    | 0xB => .sti (fieldReg w 11 9) (fieldImm w 9)
    | 0xC => .jmp (fieldReg w 8 6)
    | 0xD => .reservedD
    | 0xE => .lea (fieldReg w 11 9) (fieldImm w 9)
    | _ => decodeTrap (fieldImm w 8) := by
  unfold decode
  simp only [opcodeOf_toNat, regField_eq, getElem_eq_fieldNat, decide_eq_true_eq,
    bits_eq_fieldImm w (show 0 < 5 by omega), bits_eq_fieldImm w (show 0 < 6 by omega),
    bits_eq_fieldImm w (show 0 < 8 by omega), bits_eq_fieldImm w (show 0 < 9 by omega),
    bits_eq_fieldImm w (show 0 < 11 by omega)] <;> rfl

/-! ## Encoder operands -/

theorem reg3_reg (r : Reg) : reg3 r.val = .ok (BitVec.ofNat 16 r.val) := by
  unfold reg3
  rw [if_pos (by omega)]
  rfl

theorem u8_byte (v : BitVec 8) : u8 v.toNat = .ok (v.setWidth 16) := by
  have := v.isLt
  unfold u8
  rw [if_pos (by omega), BitVec.ofInt_natCast, BitVec.ofNat_toNat]

/-- `packSigned` of a field's signed reading is the field's pattern (R54). -/
theorem packSigned_toInt {n : Nat} (h : 2 ≤ n) (h64 : n ≤ 64) (x : BitVec n) :
    packSigned x.toInt n = .ok x.toNat := by
  have lo := BitVec.le_toInt x
  have hi := BitVec.toInt_lt (x := x)
  unfold packSigned
  rw [if_neg (by omega), if_neg (by omega)]
  have : (x.toInt % 2 ^ n).toNat = x.toNat := by
    have := BitVec.toNat_ofInt (n := n) x.toInt
    rw [BitVec.ofInt_toInt] at this
    exact_mod_cast this.symm
  rw [this]

theorem signedField_toInt {n : Nat} (h : 2 ≤ n) (h64 : n ≤ 64) (x : BitVec n) :
    signedField x.toInt n = .ok (x.setWidth 16) := by
  unfold signedField
  rw [packSigned_toInt h h64, Except.map, BitVec.ofNat_toNat]

/-- A field in the low `n` bits does not meet a mask that is zero there. -/
theorem setWidth_and_eq_zero {n : Nat} (x : BitVec n) (m : Word) (h : m.setWidth n = 0#n) :
    x.setWidth 16 &&& m = 0#16 := by
  ext i hi
  by_cases hn : i < n
  · have : m.getLsbD i = false := by
      have := congrArg (fun b => b.getLsbD i) h
      simpa [BitVec.getLsbD_setWidth, hn] using this
    simp only [← BitVec.getLsbD_eq_getElem, BitVec.getLsbD_and, this, Bool.and_false, BitVec.getLsbD_zero]
  · simp [BitVec.getLsbD_of_ge x i (not_lt.mp hn)]

end Sys2Proof
end

