-- ==== Sys2Proof/Laws/State.lean ====
section
/-! SUPPORT. The fields of a state after each named update, one lemma for each, so that no proof unfolds a record
update. -/

namespace Sys2Proof.Machine

/-! ## `State.setReg` -/

@[simp] theorem State.regs_setReg (s : State) (r : Reg) (v : Word) : (s.setReg r v).regs = s.regs.set r.val v r.isLt := rfl
@[simp] theorem State.pc_setReg (s : State) (r : Reg) (v : Word) : (s.setReg r v).pc = s.pc := rfl
@[simp] theorem State.cond_setReg (s : State) (r : Reg) (v : Word) : (s.setReg r v).cond = s.cond := rfl
@[simp] theorem State.mem_setReg (s : State) (r : Reg) (v : Word) : (s.setReg r v).mem = s.mem := rfl
@[simp] theorem State.memWords_setReg (s : State) (r : Reg) (v : Word) : (s.setReg r v).memWords = s.memWords := rfl
@[simp] theorem State.runState_setReg (s : State) (r : Reg) (v : Word) : (s.setReg r v).runState = s.runState := rfl
@[simp] theorem State.inq_setReg (s : State) (r : Reg) (v : Word) : (s.setReg r v).inq = s.inq := rfl
@[simp] theorem State.outlog_setReg (s : State) (r : Reg) (v : Word) : (s.setReg r v).outlog = s.outlog := rfl
@[simp] theorem State.error_setReg (s : State) (r : Reg) (v : Word) : (s.setReg r v).error = s.error := rfl
@[simp] theorem State.steps_setReg (s : State) (r : Reg) (v : Word) : (s.setReg r v).steps = s.steps := rfl
@[simp] theorem State.stepLimit_setReg (s : State) (r : Reg) (v : Word) : (s.setReg r v).stepLimit = s.stepLimit := rfl
@[simp] theorem State.inPrompt_setReg (s : State) (r : Reg) (v : Word) : (s.setReg r v).inPrompt = s.inPrompt := rfl
@[simp] theorem State.sinkAttached_setReg (s : State) (r : Reg) (v : Word) : (s.setReg r v).sinkAttached = s.sinkAttached := rfl
@[simp] theorem State.chunks_setReg (s : State) (r : Reg) (v : Word) : (s.setReg r v).chunks = s.chunks := rfl

/-! ## `State.setCC` -/

@[simp] theorem State.regs_setCC (s : State) (v : Word) : (s.setCC v).regs = s.regs := rfl
@[simp] theorem State.pc_setCC (s : State) (v : Word) : (s.setCC v).pc = s.pc := rfl
@[simp] theorem State.cond_setCC (s : State) (v : Word) : (s.setCC v).cond = ccOf v := rfl
@[simp] theorem State.mem_setCC (s : State) (v : Word) : (s.setCC v).mem = s.mem := rfl
@[simp] theorem State.memWords_setCC (s : State) (v : Word) : (s.setCC v).memWords = s.memWords := rfl
@[simp] theorem State.runState_setCC (s : State) (v : Word) : (s.setCC v).runState = s.runState := rfl
@[simp] theorem State.inq_setCC (s : State) (v : Word) : (s.setCC v).inq = s.inq := rfl
@[simp] theorem State.outlog_setCC (s : State) (v : Word) : (s.setCC v).outlog = s.outlog := rfl
@[simp] theorem State.error_setCC (s : State) (v : Word) : (s.setCC v).error = s.error := rfl
@[simp] theorem State.steps_setCC (s : State) (v : Word) : (s.setCC v).steps = s.steps := rfl
@[simp] theorem State.stepLimit_setCC (s : State) (v : Word) : (s.setCC v).stepLimit = s.stepLimit := rfl
@[simp] theorem State.inPrompt_setCC (s : State) (v : Word) : (s.setCC v).inPrompt = s.inPrompt := rfl
@[simp] theorem State.sinkAttached_setCC (s : State) (v : Word) : (s.setCC v).sinkAttached = s.sinkAttached := rfl
@[simp] theorem State.chunks_setCC (s : State) (v : Word) : (s.setCC v).chunks = s.chunks := rfl

/-! ## `State.writeResult` -/

@[simp] theorem State.regs_writeResult (s : State) (dr : Reg) (v : Word) : (s.writeResult dr v).regs = s.regs.set dr.val v dr.isLt := rfl
@[simp] theorem State.pc_writeResult (s : State) (dr : Reg) (v : Word) : (s.writeResult dr v).pc = s.pc := rfl
@[simp] theorem State.cond_writeResult (s : State) (dr : Reg) (v : Word) : (s.writeResult dr v).cond = ccOf v := rfl
@[simp] theorem State.mem_writeResult (s : State) (dr : Reg) (v : Word) : (s.writeResult dr v).mem = s.mem := rfl
@[simp] theorem State.memWords_writeResult (s : State) (dr : Reg) (v : Word) : (s.writeResult dr v).memWords = s.memWords := rfl
@[simp] theorem State.runState_writeResult (s : State) (dr : Reg) (v : Word) : (s.writeResult dr v).runState = s.runState := rfl
@[simp] theorem State.inq_writeResult (s : State) (dr : Reg) (v : Word) : (s.writeResult dr v).inq = s.inq := rfl
@[simp] theorem State.outlog_writeResult (s : State) (dr : Reg) (v : Word) : (s.writeResult dr v).outlog = s.outlog := rfl
@[simp] theorem State.error_writeResult (s : State) (dr : Reg) (v : Word) : (s.writeResult dr v).error = s.error := rfl
@[simp] theorem State.steps_writeResult (s : State) (dr : Reg) (v : Word) : (s.writeResult dr v).steps = s.steps := rfl
@[simp] theorem State.stepLimit_writeResult (s : State) (dr : Reg) (v : Word) : (s.writeResult dr v).stepLimit = s.stepLimit := rfl
@[simp] theorem State.inPrompt_writeResult (s : State) (dr : Reg) (v : Word) : (s.writeResult dr v).inPrompt = s.inPrompt := rfl
@[simp] theorem State.sinkAttached_writeResult (s : State) (dr : Reg) (v : Word) : (s.writeResult dr v).sinkAttached = s.sinkAttached := rfl
@[simp] theorem State.chunks_writeResult (s : State) (dr : Reg) (v : Word) : (s.writeResult dr v).chunks = s.chunks := rfl

/-! ## `State.halt` -/

@[simp] theorem State.regs_halt (s : State) (cause : Cause) : (s.halt cause).regs = s.regs := rfl
@[simp] theorem State.pc_halt (s : State) (cause : Cause) : (s.halt cause).pc = s.pc := rfl
@[simp] theorem State.cond_halt (s : State) (cause : Cause) : (s.halt cause).cond = s.cond := rfl
@[simp] theorem State.mem_halt (s : State) (cause : Cause) : (s.halt cause).mem = s.mem := rfl
@[simp] theorem State.memWords_halt (s : State) (cause : Cause) : (s.halt cause).memWords = s.memWords := rfl
@[simp] theorem State.runState_halt (s : State) (cause : Cause) : (s.halt cause).runState = .halted cause := rfl
@[simp] theorem State.inq_halt (s : State) (cause : Cause) : (s.halt cause).inq = s.inq := rfl
@[simp] theorem State.outlog_halt (s : State) (cause : Cause) : (s.halt cause).outlog = s.outlog := rfl
@[simp] theorem State.error_halt (s : State) (cause : Cause) : (s.halt cause).error = s.error := rfl
@[simp] theorem State.steps_halt (s : State) (cause : Cause) : (s.halt cause).steps = s.steps := rfl
@[simp] theorem State.stepLimit_halt (s : State) (cause : Cause) : (s.halt cause).stepLimit = s.stepLimit := rfl
@[simp] theorem State.inPrompt_halt (s : State) (cause : Cause) : (s.halt cause).inPrompt = s.inPrompt := rfl
@[simp] theorem State.sinkAttached_halt (s : State) (cause : Cause) : (s.halt cause).sinkAttached = s.sinkAttached := rfl
@[simp] theorem State.chunks_halt (s : State) (cause : Cause) : (s.halt cause).chunks = s.chunks := rfl

/-! ## `State.raise` -/

@[simp] theorem State.regs_raise (s : State) (c : Condition) : (s.raise c).regs = s.regs := rfl
@[simp] theorem State.pc_raise (s : State) (c : Condition) : (s.raise c).pc = s.pc := rfl
@[simp] theorem State.cond_raise (s : State) (c : Condition) : (s.raise c).cond = s.cond := rfl
@[simp] theorem State.mem_raise (s : State) (c : Condition) : (s.raise c).mem = s.mem := rfl
@[simp] theorem State.memWords_raise (s : State) (c : Condition) : (s.raise c).memWords = s.memWords := rfl
@[simp] theorem State.runState_raise (s : State) (c : Condition) : (s.raise c).runState = .halted (.condition c) := rfl
@[simp] theorem State.inq_raise (s : State) (c : Condition) : (s.raise c).inq = s.inq := rfl
@[simp] theorem State.outlog_raise (s : State) (c : Condition) : (s.raise c).outlog = s.outlog := rfl
@[simp] theorem State.error_raise (s : State) (c : Condition) : (s.raise c).error = some c := rfl
@[simp] theorem State.steps_raise (s : State) (c : Condition) : (s.raise c).steps = s.steps := rfl
@[simp] theorem State.stepLimit_raise (s : State) (c : Condition) : (s.raise c).stepLimit = s.stepLimit := rfl
@[simp] theorem State.inPrompt_raise (s : State) (c : Condition) : (s.raise c).inPrompt = s.inPrompt := rfl
@[simp] theorem State.sinkAttached_raise (s : State) (c : Condition) : (s.raise c).sinkAttached = s.sinkAttached := rfl
@[simp] theorem State.chunks_raise (s : State) (c : Condition) : (s.raise c).chunks = s.chunks := rfl

/-! ## `State.advancePc` -/

@[simp] theorem State.regs_advancePc (s : State) : (s.advancePc).regs = s.regs := rfl
@[simp] theorem State.pc_advancePc (s : State) : (s.advancePc).pc = s.pc + 1#16 := rfl
@[simp] theorem State.cond_advancePc (s : State) : (s.advancePc).cond = s.cond := rfl
@[simp] theorem State.mem_advancePc (s : State) : (s.advancePc).mem = s.mem := rfl
@[simp] theorem State.memWords_advancePc (s : State) : (s.advancePc).memWords = s.memWords := rfl
@[simp] theorem State.runState_advancePc (s : State) : (s.advancePc).runState = s.runState := rfl
@[simp] theorem State.inq_advancePc (s : State) : (s.advancePc).inq = s.inq := rfl
@[simp] theorem State.outlog_advancePc (s : State) : (s.advancePc).outlog = s.outlog := rfl
@[simp] theorem State.error_advancePc (s : State) : (s.advancePc).error = s.error := rfl
@[simp] theorem State.steps_advancePc (s : State) : (s.advancePc).steps = s.steps := rfl
@[simp] theorem State.stepLimit_advancePc (s : State) : (s.advancePc).stepLimit = s.stepLimit := rfl
@[simp] theorem State.inPrompt_advancePc (s : State) : (s.advancePc).inPrompt = s.inPrompt := rfl
@[simp] theorem State.sinkAttached_advancePc (s : State) : (s.advancePc).sinkAttached = s.sinkAttached := rfl
@[simp] theorem State.chunks_advancePc (s : State) : (s.advancePc).chunks = s.chunks := rfl

/-! ## `State.emit` -/

@[simp] theorem State.regs_emit (s : State) (bytes : List Byte) : (s.emit bytes).regs = s.regs := rfl
@[simp] theorem State.pc_emit (s : State) (bytes : List Byte) : (s.emit bytes).pc = s.pc := rfl
@[simp] theorem State.cond_emit (s : State) (bytes : List Byte) : (s.emit bytes).cond = s.cond := rfl
@[simp] theorem State.mem_emit (s : State) (bytes : List Byte) : (s.emit bytes).mem = s.mem := rfl
@[simp] theorem State.memWords_emit (s : State) (bytes : List Byte) : (s.emit bytes).memWords = s.memWords := rfl
@[simp] theorem State.runState_emit (s : State) (bytes : List Byte) : (s.emit bytes).runState = s.runState := rfl
@[simp] theorem State.inq_emit (s : State) (bytes : List Byte) : (s.emit bytes).inq = s.inq := rfl
@[simp] theorem State.outlog_emit (s : State) (bytes : List Byte) : (s.emit bytes).outlog = s.outlog ++ bytes := rfl
@[simp] theorem State.error_emit (s : State) (bytes : List Byte) : (s.emit bytes).error = s.error := rfl
@[simp] theorem State.steps_emit (s : State) (bytes : List Byte) : (s.emit bytes).steps = s.steps := rfl
@[simp] theorem State.stepLimit_emit (s : State) (bytes : List Byte) : (s.emit bytes).stepLimit = s.stepLimit := rfl
@[simp] theorem State.inPrompt_emit (s : State) (bytes : List Byte) : (s.emit bytes).inPrompt = s.inPrompt := rfl
@[simp] theorem State.sinkAttached_emit (s : State) (bytes : List Byte) : (s.emit bytes).sinkAttached = s.sinkAttached := rfl
@[simp] theorem State.chunks_emit (s : State) (bytes : List Byte) : (s.emit bytes).chunks = if s.sinkAttached then s.chunks ++ [bytes] else s.chunks := rfl

/-! ## `State.retire`, `State.retireSeq`, `State.redirect` -/

@[simp] theorem State.steps_retire (s : State) (npc : Nat) : (s.retire npc).steps = s.steps + 1 := by
  unfold State.retire; dsimp only; split <;> rfl
@[simp] theorem State.runState_retire (s : State) (npc : Nat) :
    (s.retire npc).runState = if s.memWords ≤ npc then .halted .endOfMemory else s.runState := by
  unfold State.retire; dsimp only; split <;> rfl
@[simp] theorem State.regs_retire (s : State) (npc : Nat) : (s.retire npc).regs = s.regs := by
  unfold State.retire; dsimp only; split <;> rfl
@[simp] theorem State.pc_retire (s : State) (npc : Nat) : (s.retire npc).pc = s.pc := by
  unfold State.retire; dsimp only; split <;> rfl
@[simp] theorem State.cond_retire (s : State) (npc : Nat) : (s.retire npc).cond = s.cond := by
  unfold State.retire; dsimp only; split <;> rfl
@[simp] theorem State.mem_retire (s : State) (npc : Nat) : (s.retire npc).mem = s.mem := by
  unfold State.retire; dsimp only; split <;> rfl
@[simp] theorem State.memWords_retire (s : State) (npc : Nat) : (s.retire npc).memWords = s.memWords := by
  unfold State.retire; dsimp only; split <;> rfl
@[simp] theorem State.inq_retire (s : State) (npc : Nat) : (s.retire npc).inq = s.inq := by
  unfold State.retire; dsimp only; split <;> rfl
@[simp] theorem State.outlog_retire (s : State) (npc : Nat) : (s.retire npc).outlog = s.outlog := by
  unfold State.retire; dsimp only; split <;> rfl
@[simp] theorem State.error_retire (s : State) (npc : Nat) : (s.retire npc).error = s.error := by
  unfold State.retire; dsimp only; split <;> rfl
@[simp] theorem State.stepLimit_retire (s : State) (npc : Nat) : (s.retire npc).stepLimit = s.stepLimit := by
  unfold State.retire; dsimp only; split <;> rfl
@[simp] theorem State.inPrompt_retire (s : State) (npc : Nat) : (s.retire npc).inPrompt = s.inPrompt := by
  unfold State.retire; dsimp only; split <;> rfl
@[simp] theorem State.sinkAttached_retire (s : State) (npc : Nat) : (s.retire npc).sinkAttached = s.sinkAttached := by
  unfold State.retire; dsimp only; split <;> rfl
@[simp] theorem State.chunks_retire (s : State) (npc : Nat) : (s.retire npc).chunks = s.chunks := by
  unfold State.retire; dsimp only; split <;> rfl

@[simp] theorem State.regs_retireSeq (s : State) :
    s.retireSeq.regs = s.regs := by
  simp [State.retireSeq]
@[simp] theorem State.pc_retireSeq (s : State) :
    s.retireSeq.pc = s.pc := by
  simp [State.retireSeq]
@[simp] theorem State.cond_retireSeq (s : State) :
    s.retireSeq.cond = s.cond := by
  simp [State.retireSeq]
@[simp] theorem State.mem_retireSeq (s : State) :
    s.retireSeq.mem = s.mem := by
  simp [State.retireSeq]
@[simp] theorem State.memWords_retireSeq (s : State) :
    s.retireSeq.memWords = s.memWords := by
  simp [State.retireSeq]
@[simp] theorem State.runState_retireSeq (s : State) :
    s.retireSeq.runState = if s.memWords ≤ seqOf s.pc then .halted .endOfMemory else s.runState := by
  simp [State.retireSeq]
@[simp] theorem State.inq_retireSeq (s : State) :
    s.retireSeq.inq = s.inq := by
  simp [State.retireSeq]
@[simp] theorem State.outlog_retireSeq (s : State) :
    s.retireSeq.outlog = s.outlog := by
  simp [State.retireSeq]
@[simp] theorem State.error_retireSeq (s : State) :
    s.retireSeq.error = s.error := by
  simp [State.retireSeq]
@[simp] theorem State.steps_retireSeq (s : State) :
    s.retireSeq.steps = s.steps + 1 := by
  simp [State.retireSeq]
@[simp] theorem State.stepLimit_retireSeq (s : State) :
    s.retireSeq.stepLimit = s.stepLimit := by
  simp [State.retireSeq]
@[simp] theorem State.inPrompt_retireSeq (s : State) :
    s.retireSeq.inPrompt = s.inPrompt := by
  simp [State.retireSeq]
@[simp] theorem State.sinkAttached_retireSeq (s : State) :
    s.retireSeq.sinkAttached = s.sinkAttached := by
  simp [State.retireSeq]
@[simp] theorem State.chunks_retireSeq (s : State) :
    s.retireSeq.chunks = s.chunks := by
  simp [State.retireSeq]

@[simp] theorem State.regs_redirect (s : State) (t : Word) :
    (s.redirect t).regs = s.regs := by
  simp [State.redirect]
@[simp] theorem State.pc_redirect (s : State) (t : Word) :
    (s.redirect t).pc = t := by
  simp [State.redirect]
@[simp] theorem State.cond_redirect (s : State) (t : Word) :
    (s.redirect t).cond = s.cond := by
  simp [State.redirect]
@[simp] theorem State.mem_redirect (s : State) (t : Word) :
    (s.redirect t).mem = s.mem := by
  simp [State.redirect]
@[simp] theorem State.memWords_redirect (s : State) (t : Word) :
    (s.redirect t).memWords = s.memWords := by
  simp [State.redirect]
@[simp] theorem State.runState_redirect (s : State) (t : Word) :
    (s.redirect t).runState = if s.memWords ≤ uval t then .halted .endOfMemory else s.runState := by
  simp [State.redirect]
@[simp] theorem State.inq_redirect (s : State) (t : Word) :
    (s.redirect t).inq = s.inq := by
  simp [State.redirect]
@[simp] theorem State.outlog_redirect (s : State) (t : Word) :
    (s.redirect t).outlog = s.outlog := by
  simp [State.redirect]
@[simp] theorem State.error_redirect (s : State) (t : Word) :
    (s.redirect t).error = s.error := by
  simp [State.redirect]
@[simp] theorem State.steps_redirect (s : State) (t : Word) :
    (s.redirect t).steps = s.steps + 1 := by
  simp [State.redirect]
@[simp] theorem State.stepLimit_redirect (s : State) (t : Word) :
    (s.redirect t).stepLimit = s.stepLimit := by
  simp [State.redirect]
@[simp] theorem State.inPrompt_redirect (s : State) (t : Word) :
    (s.redirect t).inPrompt = s.inPrompt := by
  simp [State.redirect]
@[simp] theorem State.sinkAttached_redirect (s : State) (t : Word) :
    (s.redirect t).sinkAttached = s.sinkAttached := by
  simp [State.redirect]
@[simp] theorem State.chunks_redirect (s : State) (t : Word) :
    (s.redirect t).chunks = s.chunks := by
  simp [State.redirect]

/-! ## Registers -/

theorem State.reg_def (s : State) (r : Reg) : s.reg r = s.regs[r.val] := rfl

@[simp] theorem State.reg_setReg_same (s : State) (r : Reg) (v : Word) : (s.setReg r v).reg r = v := by
  simp [State.reg_def]

theorem State.reg_setReg_other (s : State) {r q : Reg} (v : Word) (h : q ≠ r) : (s.setReg r v).reg q = s.reg q := by
  have hv : r.val ≠ q.val := fun e => h (Fin.ext e.symm)
  simp [State.reg_def, hv]

/-- A register read looks at the register file only. -/
theorem State.reg_congr {s t : State} (h : s.regs = t.regs) (r : Reg) : s.reg r = t.reg r := by
  simp [State.reg_def, h]

end Sys2Proof.Machine
end

