-- ==== Sys2Proof/Laws/Ops.lean ====
section
/-! SUPPORT. What each shared operation can do, said once. -/

namespace Sys2Proof.Machine

/-! ## Flags -/

/-- `SetCC` tests the sign (R16, R17). -/
theorem ccOf_eq_signCond (v : Word) : ccOf v = signCond v := by
  have hb : v[15] = v.msb := by simp [BitVec.msb_eq_getLsbD_last]
  have hz : v.toInt = 0 ↔ v = 0x0000#16 := by rw [← BitVec.toInt_inj]; simp
  unfold ccOf signCond
  by_cases h0 : v = 0x0000#16
  · simp [h0, condZ]
  · have h1 : v.toInt ≠ 0 := fun h => h0 (hz.mp h)
    simp only [if_neg h0, sval, if_neg h1, hb, condN, condP]
    by_cases hm : v.msb
    · have := BitVec.toInt_neg_of_msb_true hm
      simp [hm, not_lt.mpr this.le]
    · have hm' : v.msb = false := by simpa using hm
      have := BitVec.toInt_nonneg_of_msb_false hm'
      have hp : 0 < v.toInt := by omega
      simp [hm', hp]

/-- `SetCC` writes one of the three flag patterns (R16). -/
theorem ccOf_cases (v : Word) : ccOf v = 0x0001#16 ∨ ccOf v = 0x0002#16 ∨ ccOf v = 0x0004#16 := by
  unfold ccOf condZ condN condP
  split
  · exact .inr (.inl rfl)
  · split
    · exact .inr (.inr rfl)
    · exact .inl rfl

/-- Which bits of the mask word are set (R110). -/
theorem getElem_maskWord (n z p : Bool) (i : Nat) (hi : i < 16) :
    (maskWord n z p)[i] = ((i = 2 && n) || (i = 1 && z) || (i = 0 && p)) := by
  have : i = 0 ∨ i = 1 ∨ i = 2 ∨ 3 ≤ i := by omega
  rcases this with rfl | rfl | rfl | h
  · decide +revert
  · decide +revert
  · decide +revert
  · have h0 : i ≠ 0 := by omega
    have h1 : i ≠ 1 := by omega
    have h2 : i ≠ 2 := by omega
    simp only [maskWord, BitVec.getElem_setWidth, h0, h1, h2]
    simpa using BitVec.getLsbD_of_ge _ _ h

/-- BR is taken when one of its mask bits meets the flag at the same place (R110). -/
theorem branchTaken_eq (n z p : Bool) (cond : Word) :
    branchTaken n z p cond = ((n && cond[2]) || (z && cond[1]) || (p && cond[0])) := by
  have key : maskWord n z p &&& cond = maskWord (n && cond[2]) (z && cond[1]) (p && cond[0]) := by
    ext i hi
    simp only [BitVec.getElem_and, getElem_maskWord]
    have : i = 0 ∨ i = 1 ∨ i = 2 ∨ 3 ≤ i := by omega
    rcases this with rfl | rfl | rfl | h
    · simp
    · simp
    · simp
    · have h0 : i ≠ 0 := by omega
      have h1 : i ≠ 1 := by omega
      have h2 : i ≠ 2 := by omega
      simp [h0, h1, h2]
  unfold branchTaken
  rw [key]
  cases (n && cond[2]) <;> cases (z && cond[1]) <;> cases (p && cond[0]) <;> rfl

/-! ## Memory accesses -/

theorem State.memRead_of_lt {s : State} {a : Word} (h : uval a < s.memWords) :
    s.memRead a = .ok (s.mem.read (uval a)) := if_pos h

theorem State.memRead_of_ge {s : State} {a : Word} (h : s.memWords ≤ uval a) :
    s.memRead a = .error (.unmappedAccess a) := if_neg (not_lt.mpr h)

theorem State.memWrite_of_lt {s : State} {a v : Word} (h : uval a < s.memWords) :
    s.memWrite a v = .ok { s with mem := s.mem.write (uval a) v } := if_pos h

theorem State.memWrite_of_ge {s : State} {a v : Word} (h : s.memWords ≤ uval a) :
    s.memWrite a v = .error (.unmappedAccess a) := if_neg (not_lt.mpr h)

/-- A read either gives the cell or raises UnmappedAccess (R33). -/
theorem State.memRead_cases (s : State) (a : Word) :
    (uval a < s.memWords ∧ s.memRead a = .ok (s.mem.read (uval a))) ∨
      (s.memWords ≤ uval a ∧ s.memRead a = .error (.unmappedAccess a)) := by
  rcases lt_or_ge (uval a) s.memWords with h | h
  · exact .inl ⟨h, State.memRead_of_lt h⟩
  · exact .inr ⟨h, State.memRead_of_ge h⟩

/-- If an instruction whose access can raise answers a next state, the access gave a value and the rest answered it, or
the access raised in the state before it (R188). -/
theorem orRaise_next {α : Type} {s t : State} {r : Except Condition α}
    {rest : α → Host.Outcome State Fault Refusal} (h : orRaise s r rest = .next t) :
    (∃ v, r = .ok v ∧ rest v = .next t) ∨ ∃ c, r = .error c ∧ t = s.raise c := by
  cases r with
  | ok v => exact .inl ⟨v, rfl, h⟩
  | error c => exact .inr ⟨c, rfl, (Host.Outcome.next.inj h).symm⟩

/-- A load writes DR and retires, or raises UnmappedAccess with nothing written (R120 to R122). -/
theorem State.loadInto_cases (s : State) (dr : Reg) (ea : Word) :
    (uval ea < s.memWords ∧ s.loadInto dr ea = .next (s.writeResult dr (s.mem.read (uval ea))).retireSeq) ∨
      (s.memWords ≤ uval ea ∧ s.loadInto dr ea = .next (s.raise (.unmappedAccess ea))) := by
  unfold State.loadInto
  rcases s.memRead_cases ea with ⟨h, e⟩ | ⟨h, e⟩
  · exact .inl ⟨h, by rw [e]; rfl⟩
  · exact .inr ⟨h, by rw [e]; rfl⟩

/-- A store writes the one cell and retires, or raises UnmappedAccess with nothing written (R124 to R126). -/
theorem State.storeFrom_cases (s : State) (sr : Reg) (ea : Word) :
    (uval ea < s.memWords ∧ s.storeFrom sr ea =
        .next { s with mem := s.mem.write (uval ea) (s.reg sr) }.retireSeq) ∨
      (s.memWords ≤ uval ea ∧ s.storeFrom sr ea = .next (s.raise (.unmappedAccess ea))) := by
  unfold State.storeFrom
  rcases lt_or_ge (uval ea) s.memWords with h | h
  · exact .inl ⟨h, by rw [State.memWrite_of_lt h]; rfl⟩
  · exact .inr ⟨h, by rw [State.memWrite_of_ge h]; rfl⟩

/-! ## Retire -/

/-- The retired state, as one record: the step is counted and the run state follows R97. -/
theorem State.retire_eq (s : State) (npc : Nat) :
    s.retire npc = { s with steps := s.steps + 1, runState := s.runStateAt npc } := by
  unfold State.retire State.runStateAt
  split
  · next h => simp [State.halt, not_lt.mpr h]
  · next h => simp [not_le.mp h]

theorem State.retireSeq_eq (s : State) :
    s.retireSeq = { s with steps := s.steps + 1, runState := s.runStateAt (seqOf s.pc) } :=
  s.retire_eq _

theorem State.redirect_eq (s : State) (t : Word) :
    s.redirect t = { s with pc := t, steps := s.steps + 1, runState := s.runStateAt (uval t) } :=
  State.retire_eq _ _

/-- Writing a result and retiring is the state of the claims (R18, R97). -/
theorem State.writeResult_retireSeq (s : State) (dr : Reg) (v : Word) :
    (s.writeResult dr v).retireSeq = s.afterResult dr v := by
  rw [State.retireSeq_eq, State.afterResult, ← ccOf_eq_signCond]; rfl

/-- Storing and retiring is the state of the claims (R34, R97). -/
theorem State.write_retireSeq (s : State) (ea v : Word) :
    s.afterStore ea v { s with mem := s.mem.write (uval ea) v }.retireSeq := by
  refine ⟨by simp, fun a h => by simp [Memory.read_write_other _ _ h], ?_⟩
  rw [State.retireSeq_eq]; rfl

/-- The incremented PC gives the unwrapped address back (R95). -/
theorem seqOf_add_one (a : Word) : seqOf (a + 1#16) = uval a + 1 := by
  unfold seqOf
  have := a.isLt
  split
  · next h =>
    have := congrArg BitVec.toNat h
    simp [BitVec.toNat_add] at this
    simp only [uval]; omega
  · next h =>
    have hne : (a + 1#16).toNat ≠ 0 := fun e => h (BitVec.eq_of_toNat_eq (by simpa using e))
    simp only [uval, BitVec.toNat_add, BitVec.toNat_ofNat] at *
    omega

/-! ## Reads of a character -/

theorem State.deliver_eq (s : State) (c : Byte) :
    s.deliver c = { s with
      regs := s.regs.set 0 (c.setWidth 16), cond := signCond (c.setWidth 16), steps := s.steps + 1,
      runState := s.runStateAt (seqOf s.pc) } := by
  rw [State.deliver, State.retireSeq_eq, ← ccOf_eq_signCond]; rfl

theorem State.readChar_cons {s : State} {c : Byte} {rest : List Byte} (h : s.inq = c :: rest) (svc : Service) :
    s.readChar svc = { s with inq := rest }.deliver c := by
  simp [State.readChar, h]

theorem State.readChar_nil {s : State} (h : s.inq = []) (svc : Service) :
    s.readChar svc = { s with runState := .running (some svc) } := by
  simp [State.readChar, h]

/-! ## The bytes of a cell -/

theorem lowByte_eq (v : Word) : lowByte v = BitVec.ofNat 8 (uval v) := by
  apply BitVec.eq_of_toNat_eq; simp [lowByte]

theorem highByte_eq (v : Word) : highByte v = BitVec.ofNat 8 (uval v / 256) := by
  apply BitVec.eq_of_toNat_eq; simp [highByte, Nat.shiftRight_eq_div_pow]

/-! ## The string walk -/

/-- The walk past `n` cells that exist and are not zero: their bytes are gathered in order (R143, R145). -/
theorem State.stringWalk_past (s : State) (bytesOf : Word → List Byte) (n fuel : Nat) (a : Word) (out : List Byte)
    (h : ∀ i < n, uval (a + BitVec.ofNat 16 i) < s.memWords ∧
      s.mem.read (uval (a + BitVec.ofNat 16 i)) ≠ 0x0000#16) :
    s.stringWalk bytesOf (n + fuel) a out =
      s.stringWalk bytesOf fuel (a + BitVec.ofNat 16 n)
        (out ++ (List.range n).flatMap fun i => bytesOf (s.mem.read (uval (a + BitVec.ofNat 16 i)))) := by
  induction n generalizing a out with
  | zero => simp
  | succ n ih =>
    obtain ⟨h0, hz⟩ := h 0 (Nat.succ_pos n)
    simp only [BitVec.add_zero] at h0 hz
    have shift : ∀ i, a + 1#16 + BitVec.ofNat 16 i = a + BitVec.ofNat 16 (i + 1) := fun i => by
      rw [BitVec.add_assoc, Nat.add_comm i 1, BitVec.ofNat_add]
    have := ih (a + 1#16) (out ++ bytesOf (s.mem.read (uval a))) fun i hi => by
      rw [shift]; exact h (i + 1) (by omega)
    rw [show n + 1 + fuel = n + fuel + 1 by omega]
    simp only [State.stringWalk, State.memRead_of_lt h0, orRaise, if_neg hz, this, shift]
    simp [List.range_succ_eq_map, List.flatMap_map, Nat.mod_eq_of_lt a.isLt]

/-- The address of the `i`-th cell of a walk, unwrapped and reduced (R32). -/
theorem uval_add_ofNat (a : Word) (i : Nat) : uval (a + BitVec.ofNat 16 i) = (uval a + i) % 65536 := by
  simp [uval, BitVec.toNat_add]

/-- What a string service does (R143, R145): after `n` cells that exist and are not zero, the walk stands at the next
one with the bytes of those `n`. -/
theorem State.stringWalk_goesOn (s : State) (bytesOf : Word → List Byte) (n fuel : Nat)
    (h : ∀ i < n, s.stringGoesOn i) :
    s.stringWalk bytesOf (n + fuel) (s.reg 0) [] =
      s.stringWalk bytesOf fuel (s.reg 0 + BitVec.ofNat 16 n)
        ((List.range n).flatMap fun i => bytesOf (s.stringCell i)) := by
  have := s.stringWalk_past bytesOf n fuel (s.reg 0) [] fun i hi => by
    rw [uval_add_ofNat]; exact h i hi
  simpa [uval_add_ofNat, State.stringCell] using this

/-- A walk over fewer than 65,536 cells up to a zero cell emits the gathered bytes as one chunk and retires. -/
theorem State.stringWalk_ends (s : State) (bytesOf : Word → List Byte) (n : Nat) (hn : n < 65536)
    (h : ∀ i < n, s.stringGoesOn i) (hm : (uval (s.reg 0) + n) % 65536 < s.memWords)
    (hz : s.stringCell n = 0x0000#16) :
    s.stringWalk bytesOf walkFuel (s.reg 0) [] =
      .next (s.emit ((List.range n).flatMap fun i => bytesOf (s.stringCell i))).retireSeq := by
  obtain ⟨f, hf⟩ : ∃ f, walkFuel = n + (f + 1) := ⟨65535 - n, by simp only [walkFuel]; omega⟩
  rw [hf, s.stringWalk_goesOn bytesOf n (f + 1) h]
  rw [← uval_add_ofNat] at hm
  have hz' : s.mem.read (uval (s.reg 0 + BitVec.ofNat 16 n)) = 0x0000#16 := by rw [uval_add_ofNat]; exact hz
  simp only [State.stringWalk, State.memRead_of_lt hm, orRaise, if_pos hz']

/-- A walk that comes to an address with no cell raises UnmappedAccess there. -/
theorem State.stringWalk_unmapped (s : State) (bytesOf : Word → List Byte) (n : Nat) (hn : n < 65536)
    (h : ∀ i < n, s.stringGoesOn i) (hm : s.memWords ≤ (uval (s.reg 0) + n) % 65536) :
    s.stringWalk bytesOf walkFuel (s.reg 0) [] =
      .next (s.raise (.unmappedAccess (s.reg 0 + BitVec.ofNat 16 n))) := by
  obtain ⟨f, hf⟩ : ∃ f, walkFuel = n + (f + 1) := ⟨65535 - n, by simp only [walkFuel]; omega⟩
  rw [hf, s.stringWalk_goesOn bytesOf n (f + 1) h]
  rw [← uval_add_ofNat] at hm
  simp [State.stringWalk, State.memRead_of_ge hm, orRaise]

/-- A walk over 65,536 cells none of which is zero never ends. -/
theorem State.stringWalk_sticks (s : State) (bytesOf : Word → List Byte) (h : ∀ i < 65536, s.stringGoesOn i) :
    s.stringWalk bytesOf walkFuel (s.reg 0) [] = .fault .unterminatedString := by
  have := s.stringWalk_goesOn bytesOf 65536 0 h
  rw [show walkFuel = 65536 + 0 from rfl, this]
  rfl

/-- The three ways a string service can go. -/
theorem State.stringWalk_cases (s : State) (bytesOf : Word → List Byte) :
    (∃ bytes, s.stringWalk bytesOf walkFuel (s.reg 0) [] = .next (s.emit bytes).retireSeq) ∨
      (∃ a, s.memWords ≤ uval a ∧
        s.stringWalk bytesOf walkFuel (s.reg 0) [] = .next (s.raise (.unmappedAccess a))) ∨
      s.stringWalk bytesOf walkFuel (s.reg 0) [] = .fault .unterminatedString := by
  by_cases h : ∀ i < 65536, s.stringGoesOn i
  · exact .inr (.inr (s.stringWalk_sticks bytesOf h))
  · classical
    have hex : ∃ n, n < 65536 ∧ ¬s.stringGoesOn n := by simpa using h
    obtain ⟨hn, hs⟩ := Nat.find_spec hex
    have before : ∀ i < Nat.find hex, s.stringGoesOn i := fun i hi => by
      have := Nat.find_min hex hi
      by_contra hc
      exact this ⟨hi.trans hn, hc⟩
    rcases lt_or_ge ((uval (s.reg 0) + Nat.find hex) % 65536) s.memWords with hm | hm
    · have hz : s.stringCell (Nat.find hex) = 0x0000#16 := by
        by_contra hc
        exact hs ⟨hm, hc⟩
      exact .inl ⟨_, s.stringWalk_ends bytesOf _ hn before hm hz⟩
    · refine .inr (.inl ⟨_, ?_, s.stringWalk_unmapped bytesOf _ hn before hm⟩)
      rw [uval_add_ofNat]; exact hm

end Sys2Proof.Machine
end

