-- ==== Sys2Proof/Laws/Exec.lean ====
section
/-! SUPPORT. Everything that an instruction can do, said once: each next state of `exec` is one of the effects below, so
that a rule over all instructions is proved by cases on the effect. -/

namespace Sys2Proof.Machine

/-- What a raised condition says of the instruction and the state (R180). -/
def raiseCause (i : Instr) (s : State) : Condition → Prop
  | .unmappedAccess a => s.memWords ≤ uval a
  | .badOpcode (some op) => (op = 8#4 ∧ i = .reserved8) ∨ (op = 13#4 ∧ i = .reservedD)
  | .badTrap v => i = .trap v
  | .badOpcode none | .fieldOverflow _ _ | .stepLimit | .cancelled => False

/-- The effects of instructions: `Effect i s t` says one way in which `i` takes `s` to `t`. -/
inductive Effect : Instr → State → State → Prop
  /-- A flag-setting instruction writes `v` and retires (R18). -/
  | result {i : Instr} {s : State} {dr : Reg} {v : Word} (written : i.regWritten = some dr)
      (flags : i.flagSource = some dr) (noStore : storeAddress s i = none) (pc : pcAfter s i = s.pc) :
      Effect i s (s.afterResult dr v)
  | branch {s : State} {n z p : Bool} {off : BitVec 9} (taken : branchTaken n z p s.cond = true) :
      Effect (.br n z p off) s (s.redirect (s.pcRel9 off))
  | noBranch {s : State} {n z p : Bool} {off : BitVec 9} (notTaken : branchTaken n z p s.cond = false) :
      Effect (.br n z p off) s s.retireSeq
  | jump {s : State} {base : Reg} : Effect (.jmp base) s (s.redirect (s.reg base))
  | call {s : State} {off : BitVec 11} :
      Effect (.jsr off) s ((s.setReg Reg.link s.pc).redirect (s.pcRel11 off))
  | callReg {s : State} {base : Reg} :
      Effect (.jsrr base) s ((s.setReg Reg.link s.pc).redirect ((s.setReg Reg.link s.pc).reg base))
  /-- A store writes the cell at its address and retires (R124 to R126). -/
  | store {i : Instr} {s : State} {ea v : Word} (noReg : i.regWritten = none) (noFlags : i.flagSource = none)
      (address : storeAddress s i = some ea) (pc : pcAfter s i = s.pc) (mapped : uval ea < s.memWords) :
      Effect i s { s with mem := s.mem.write (uval ea) v }.retireSeq
  /-- A condition is taken (R188). -/
  | raise {i : Instr} {s : State} {c : Condition} (pc : pcAfter s i = s.pc) (cause : raiseCause i s c) :
      Effect i s (s.raise c)
  /-- OUT, PUTS and PUTSP emit one chunk and retire (R152). -/
  | output {i : Instr} {s : State} {bytes : List Byte} (service : i = .trapOut ∨ i = .trapPuts ∨ i = .trapPutsp) :
      Effect i s (s.emit bytes).retireSeq
  | getcRead {s : State} {c : Byte} {rest : List Byte} (queue : s.inq = c :: rest) :
      Effect .trapGetc s ({ s with inq := rest }.deliver c)
  | getcSuspend {s : State} (queue : s.inq = []) : Effect .trapGetc s { s with runState := .running (some .getc) }
  | inRead {s : State} {c : Byte} {rest : List Byte} (queue : s.inq = c :: rest) :
      Effect .trapIn s ({ s.emit s.inPrompt with inq := rest }.deliver c)
  | inSuspend {s : State} (queue : s.inq = []) :
      Effect .trapIn s { s.emit s.inPrompt with runState := .running (some .inChar) }
  | halt {s : State} : Effect .trapHalt s (s.halt .halt)

theorem loadInto_effect {i : Instr} {s t : State} {dr : Reg} {ea : Word} (h : s.loadInto dr ea = .next t)
    (written : i.regWritten = some dr) (flags : i.flagSource = some dr) (noStore : storeAddress s i = none)
    (pc : pcAfter s i = s.pc) : Effect i s t := by
  rcases s.loadInto_cases dr ea with ⟨hm, e⟩ | ⟨hm, e⟩ <;> rw [e] at h <;> cases h
  · rw [State.writeResult_retireSeq]
    exact .result written flags noStore pc
  · exact .raise pc hm

theorem storeFrom_effect {i : Instr} {s t : State} {sr : Reg} {ea : Word} (h : s.storeFrom sr ea = .next t)
    (noReg : i.regWritten = none) (noFlags : i.flagSource = none) (address : storeAddress s i = some ea)
    (pc : pcAfter s i = s.pc) : Effect i s t := by
  rcases s.storeFrom_cases sr ea with ⟨hm, e⟩ | ⟨hm, e⟩ <;> rw [e] at h <;> cases h
  · exact .store noReg noFlags address pc hm
  · exact .raise pc hm

theorem stringWalk_effect {i : Instr} {s t : State} {bytesOf : Word → List Byte}
    (h : s.stringWalk bytesOf walkFuel (s.reg 0) [] = .next t) (service : i = .trapPuts ∨ i = .trapPutsp) :
    Effect i s t := by
  have pc : pcAfter s i = s.pc := by rcases service with rfl | rfl <;> rfl
  rcases s.stringWalk_cases bytesOf with ⟨bytes, e⟩ | ⟨a, hm, e⟩ | e <;> rw [e] at h <;> cases h
  · exact .output (.inr service)
  · exact .raise pc hm

/-- Every next state of an instruction is one of its effects. -/
theorem exec_effect {i : Instr} {s t : State} (h : exec i s = .next t) : Effect i s t := by
  cases i with
  | br n z p off =>
    simp only [exec, execBr] at h
    split at h
    · next taken => cases h; exact .branch taken
    · next notTaken => cases h; exact .noBranch (by simpa using notTaken)
  | addReg | addImm | andReg | andImm | notReg | lea =>
    simp only [exec, execAddReg, execAddImm, execAndReg, execAndImm, execNotReg, execLea,
      State.writeResult_retireSeq] at h
    cases h
    exact .result rfl rfl rfl rfl
  | ld dr off => exact loadInto_effect h rfl rfl rfl rfl
  | ldr dr base off => exact loadInto_effect h rfl rfl rfl rfl
  | ldi dr off =>
    rcases orRaise_next h with ⟨ea, -, h⟩ | ⟨c, hc, rfl⟩
    · exact loadInto_effect h rfl rfl rfl rfl
    · rcases s.memRead_cases (s.pcRel9 off) with ⟨-, e⟩ | ⟨hm, e⟩ <;> rw [e] at hc <;> cases hc
      exact .raise rfl hm
  | st sr off => exact storeFrom_effect h rfl rfl rfl rfl
  | str sr base off => exact storeFrom_effect h rfl rfl rfl rfl
  | sti sr off =>
    rcases orRaise_next h with ⟨ea, he, h⟩ | ⟨c, hc, rfl⟩
    · exact storeFrom_effect h rfl rfl (by simp [storeAddress, he, Except.toOption]) rfl
    · rcases s.memRead_cases (s.pcRel9 off) with ⟨-, e⟩ | ⟨hm, e⟩ <;> rw [e] at hc <;> cases hc
      exact .raise rfl hm
  | jsr => cases h; exact .call
  | jsrr => cases h; exact .callReg
  | jmp => cases h; exact .jump
  | reserved8 => cases h; exact .raise rfl (.inl ⟨rfl, rfl⟩)
  | reservedD => cases h; exact .raise rfl (.inr ⟨rfl, rfl⟩)
  | trapGetc =>
    cases h
    cases hq : s.inq with
    | nil => rw [State.readChar_nil hq]; exact .getcSuspend hq
    | cons c rest => rw [State.readChar_cons hq]; exact .getcRead hq
  | trapIn =>
    cases h
    have he : (s.emit s.inPrompt).inq = s.inq := rfl
    cases hq : s.inq with
    | nil => rw [State.readChar_nil (he.trans hq)]; exact .inSuspend hq
    | cons c rest => rw [State.readChar_cons (he.trans hq)]; exact .inRead hq
  | trapOut => cases h; exact .output (.inl rfl)
  | trapPuts => exact stringWalk_effect h (.inl rfl)
  | trapPutsp => exact stringWalk_effect h (.inr rfl)
  | trapHalt => cases h; exact .halt
  | trap vec => cases h; exact .raise rfl rfl

/-! ## Steps -/

/-- A step can begin only in Running with no pending read (R93). -/
theorem State.stepRefusal_eq_none {s : State} : s.stepRefusal = none ↔ s.runState = .running none := by
  unfold State.stepRefusal
  split <;> simp [*]

/-- The cap is not reached exactly below it (R94). -/
theorem State.capReached_eq_false {s : State} : s.capReached = false ↔ s.BelowCap := by
  unfold State.capReached State.BelowCap
  split <;> simp [*]

/-- Every next state of a step: the cap, a fetch with no cell, or an effect of the decoded instruction (R93 to R96). -/
theorem step_next {s t : State} (h : step s = .next t) :
    s.runState = .running none ∧
      ((s.capReached = true ∧ t = s.raise .stepLimit) ∨
        (s.BelowCap ∧ s.memWords ≤ uval s.pc ∧ t = s.advancePc.raise (.badOpcode none)) ∨
        (s.BelowCap ∧ uval s.pc < s.memWords ∧
          exec (decode (s.mem.read (uval s.pc))) s.advancePc = .next t)) := by
  unfold step at h
  split at h
  · cases h
  · next hr =>
    refine ⟨State.stepRefusal_eq_none.mp hr, ?_⟩
    split at h
    · next hc => cases h; exact .inl ⟨hc, rfl⟩
    · next hc =>
      have below : s.BelowCap := State.capReached_eq_false.mp (by simpa using hc)
      unfold State.fetch at h
      by_cases hm : uval s.pc < s.memWords
      · rw [if_pos hm] at h; exact .inr (.inr ⟨below, hm, h⟩)
      · rw [if_neg hm] at h; cases h; exact .inr (.inl ⟨below, not_lt.mp hm, rfl⟩)

end Sys2Proof.Machine
end

