-- ==== Sys2Proof/Laws/Lifecycle.lean ====
section
/-! SUPPORT. What loading words into memory leaves (70_reset_and_hazards.md R204, R205); sequences of host calls, and the
calls of the loop of `run`, one call at a time (R200, R206). -/

namespace Sys2Proof.Machine

/-- Each loaded word stands in its cell, cut at the memory size; every other cell reads as before (R204, R205). -/
theorem loadWords_read (n : Nat) (m : Memory) (base : Nat) (ws : List Word) (a : Nat) :
    (loadWords n m base ws).read a =
      if a < n ∧ base ≤ a ∧ a < base + ws.length then ws.getD (a - base) 0x0000#16 else m.read a := by
  induction ws generalizing m base with
  | nil => rw [if_neg (by simp only [List.length_nil]; omega)]; rfl
  | cons w ws ih =>
    have first : Memory.read (if base < n then m.write base w else m) a =
        if base < n ∧ a = base then w else m.read a := by
      by_cases hb : base < n <;> by_cases ha : a = base <;> simp [hb, ha, Memory.read_write_other]
    rw [loadWords, ih, first, List.length_cons]
    rcases Nat.lt_trichotomy a base with h | rfl | h
    · rw [if_neg (by omega : ¬(a < n ∧ base + 1 ≤ a ∧ _)), if_neg (by omega : ¬(base < n ∧ a = base)),
        if_neg (by omega)]
    · rw [if_neg (by omega : ¬(a < n ∧ a + 1 ≤ a ∧ _)), Nat.sub_self]
      exact if_congr (by omega) rfl rfl
    · have e : a - base = a - (base + 1) + 1 := by omega
      rw [e, List.getD_cons_succ, if_neg (by omega : ¬(base < n ∧ a = base))]
      exact if_congr (by omega) rfl rfl

@[simp] theorem State.calls_nil (s : State) : s.calls [] = .next s := rfl

theorem State.calls_cons_next {s t : State} {c : HostCall} (h : s.call c = .next t) (cs : List HostCall) :
    s.calls (c :: cs) = t.calls cs := by
  simp only [State.calls, h]

theorem State.calls_cons_refused {s : State} {c : HostCall} {r : Refusal} (h : s.call c = .refused r)
    (cs : List HostCall) : s.calls (c :: cs) = s.calls cs := by
  simp only [State.calls, h]

theorem State.calls_cons_fault {s : State} {c : HostCall} {f : Fault} (h : s.call c = .fault f) (cs : List HostCall) :
    s.calls (c :: cs) = .fault f := by
  simp only [State.calls, h]

@[simp] theorem WaitAnswer.toCall_ne_step (a : WaitAnswer) : a.toCall ≠ .step := by
  cases a <;> simp [WaitAnswer.toCall]

theorem State.LoopCalls.nil (s : State) (answers : List WaitAnswer) : s.LoopCalls answers [] :=
  ⟨List.nil_prefix, fun pre c post h => by simp at h⟩

/-- A call in front: where it is allowed in `s` and leads to `t`, the calls after it are calls of the loop from `t`. -/
theorem State.LoopCalls.cons {s t : State} {c : HostCall} {cs : List HostCall} {answers rest : List WaitAnswer}
    (lead : ∀ pre, s.calls (c :: pre) = t.calls pre)
    (allowed : if c = .step then s.runState = .running none else ∃ svc, s.runState = .running (some svc))
    (order : [c].filter (· ≠ .step) ++ rest.map WaitAnswer.toCall = answers.map WaitAnswer.toCall)
    (h : t.LoopCalls rest cs) : s.LoopCalls answers (c :: cs) := by
  refine ⟨?_, fun pre d post e => ?_⟩
  · rw [← order, ← List.singleton_append, List.filter_append]
    exact (List.prefix_append_right_inj _).mpr h.1
  · cases pre with
    | nil => cases e; exact ⟨s, rfl, allowed⟩
    | cons b pre =>
      rw [List.cons_append, List.cons.injEq] at e
      obtain ⟨rfl, e⟩ := e
      rw [lead]
      exact h.2 pre d post e

end Sys2Proof.Machine
end

