-- ==== Sys2Proof/Laws/PerInstr.lean ====
section
/-! SUPPORT. Per instruction: the word that the encoder gives has the fixed bits of the instruction's row in
opcode_table.json. -/

namespace Sys2Proof.Laws.EncodesTableRow

open Sys2Proof

/-- Every word that `encode` gives for `i` matches the row of `i`. -/
def Statement (i : Instr) : Prop :=
  ∀ w, encode i = some w → w &&& i.tableMask = i.tableMatch

theorem reg_nine (m : Word) (h : m &&& 0x0E00#16 = 0#16) (r : Reg) : BitVec.ofNat 16 r.val <<< 9 &&& m = 0#16 := by
  have : BitVec.ofNat 16 r.val <<< 9 = BitVec.ofNat 16 r.val <<< 9 &&& 0x0E00#16 := by decide +revert
  rw [this, BitVec.and_assoc, BitVec.and_comm 0x0E00#16 m, h, BitVec.and_zero]

theorem reg_six (m : Word) (h : m &&& 0x01C0#16 = 0#16) (r : Reg) : BitVec.ofNat 16 r.val <<< 6 &&& m = 0#16 := by
  have : BitVec.ofNat 16 r.val <<< 6 = BitVec.ofNat 16 r.val <<< 6 &&& 0x01C0#16 := by decide +revert
  rw [this, BitVec.and_assoc, BitVec.and_comm 0x01C0#16 m, h, BitVec.and_zero]

theorem reg_zero (m : Word) (h : m &&& 0x0007#16 = 0#16) (r : Reg) : BitVec.ofNat 16 r.val &&& m = 0#16 := by
  have : BitVec.ofNat 16 r.val = BitVec.ofNat 16 r.val &&& 0x0007#16 := by decide +revert
  rw [this, BitVec.and_assoc, BitVec.and_comm 0x0007#16 m, h, BitVec.and_zero]

theorem mask_n (n : Bool) : maskBit n 11 &&& 0xF000#16 = 0#16 := by decide +revert

theorem mask_z (z : Bool) : maskBit z 10 &&& 0xF000#16 = 0#16 := by decide +revert

theorem mask_p (p : Bool) : maskBit p 9 &&& 0xF000#16 = 0#16 := by decide +revert

theorem br (n : Bool) (z : Bool) (p : Bool) (off : BitVec 9) : Statement (.br n z p off) := by
  intro w h
  simp [encode, encBR, signedField_toInt, Except.toOption, bind, Except.bind, pure, Except.pure] at h
  subst h
  simp [Instr.tableMask, Instr.tableMatch, BitVec.and_or_distrib_right, mask_n, mask_z, mask_p, setWidth_and_eq_zero]

theorem addReg (dr : Reg) (sr1 : Reg) (sr2 : Reg) : Statement (.addReg dr sr1 sr2) := by
  intro w h
  simp [encode, encADD, encOperate, reg3_reg, Except.toOption, bind, Except.bind, pure, Except.pure] at h
  subst h
  simp [Instr.tableMask, Instr.tableMatch, BitVec.and_or_distrib_right, reg_nine, reg_six, reg_zero]

theorem addImm (dr : Reg) (sr1 : Reg) (imm : BitVec 5) : Statement (.addImm dr sr1 imm) := by
  intro w h
  simp [encode, encADD, encOperate, reg3_reg, signedField_toInt, Except.toOption, bind, Except.bind, pure, Except.pure] at h
  subst h
  simp [Instr.tableMask, Instr.tableMatch, BitVec.and_or_distrib_right, reg_nine, reg_six, setWidth_and_eq_zero]

theorem ld (dr : Reg) (off : BitVec 9) : Statement (.ld dr off) := by
  intro w h
  simp [encode, encLD, encPC9, reg3_reg, signedField_toInt, Except.toOption, bind, Except.bind, pure, Except.pure] at h
  subst h
  simp [Instr.tableMask, Instr.tableMatch, BitVec.and_or_distrib_right, reg_nine, setWidth_and_eq_zero]

theorem st (sr : Reg) (off : BitVec 9) : Statement (.st sr off) := by
  intro w h
  simp [encode, encST, encPC9, reg3_reg, signedField_toInt, Except.toOption, bind, Except.bind, pure, Except.pure] at h
  subst h
  simp [Instr.tableMask, Instr.tableMatch, BitVec.and_or_distrib_right, reg_nine, setWidth_and_eq_zero]

theorem jsr (off : BitVec 11) : Statement (.jsr off) := by
  intro w h
  simp [encode, encJSR, signedField_toInt, Except.toOption, bind, Except.bind, pure, Except.pure] at h
  subst h
  simp [Instr.tableMask, Instr.tableMatch, BitVec.and_or_distrib_right, setWidth_and_eq_zero]

theorem jsrr (base : Reg) : Statement (.jsrr base) := by
  intro w h
  simp [encode, encJSRR, reg3_reg, Except.toOption, bind, Except.bind, pure, Except.pure] at h
  subst h
  simp [Instr.tableMask, Instr.tableMatch, BitVec.and_or_distrib_right, reg_six]

theorem andReg (dr : Reg) (sr1 : Reg) (sr2 : Reg) : Statement (.andReg dr sr1 sr2) := by
  intro w h
  simp [encode, encAND, encOperate, reg3_reg, Except.toOption, bind, Except.bind, pure, Except.pure] at h
  subst h
  simp [Instr.tableMask, Instr.tableMatch, BitVec.and_or_distrib_right, reg_nine, reg_six, reg_zero]

theorem andImm (dr : Reg) (sr1 : Reg) (imm : BitVec 5) : Statement (.andImm dr sr1 imm) := by
  intro w h
  simp [encode, encAND, encOperate, reg3_reg, signedField_toInt, Except.toOption, bind, Except.bind, pure, Except.pure] at h
  subst h
  simp [Instr.tableMask, Instr.tableMatch, BitVec.and_or_distrib_right, reg_nine, reg_six, setWidth_and_eq_zero]

theorem ldr (dr : Reg) (base : Reg) (off : BitVec 6) : Statement (.ldr dr base off) := by
  intro w h
  simp [encode, encLDR, encBASE6, reg3_reg, signedField_toInt, Except.toOption, bind, Except.bind, pure, Except.pure] at h
  subst h
  simp [Instr.tableMask, Instr.tableMatch, BitVec.and_or_distrib_right, reg_nine, reg_six, setWidth_and_eq_zero]

theorem str (sr : Reg) (base : Reg) (off : BitVec 6) : Statement (.str sr base off) := by
  intro w h
  simp [encode, encSTR, encBASE6, reg3_reg, signedField_toInt, Except.toOption, bind, Except.bind, pure, Except.pure] at h
  subst h
  simp [Instr.tableMask, Instr.tableMatch, BitVec.and_or_distrib_right, reg_nine, reg_six, setWidth_and_eq_zero]

theorem reserved8 : Statement (.reserved8) := by
  intro w h
  simp [encode] at h

theorem notReg (dr : Reg) (sr : Reg) : Statement (.notReg dr sr) := by
  intro w h
  simp [encode, encNOT, reg3_reg, Except.toOption, bind, Except.bind, pure, Except.pure] at h
  subst h
  simp [Instr.tableMask, Instr.tableMatch, BitVec.and_or_distrib_right, reg_nine, reg_six]

theorem ldi (dr : Reg) (off : BitVec 9) : Statement (.ldi dr off) := by
  intro w h
  simp [encode, encLDI, encPC9, reg3_reg, signedField_toInt, Except.toOption, bind, Except.bind, pure, Except.pure] at h
  subst h
  simp [Instr.tableMask, Instr.tableMatch, BitVec.and_or_distrib_right, reg_nine, setWidth_and_eq_zero]

theorem sti (sr : Reg) (off : BitVec 9) : Statement (.sti sr off) := by
  intro w h
  simp [encode, encSTI, encPC9, reg3_reg, signedField_toInt, Except.toOption, bind, Except.bind, pure, Except.pure] at h
  subst h
  simp [Instr.tableMask, Instr.tableMatch, BitVec.and_or_distrib_right, reg_nine, setWidth_and_eq_zero]

theorem jmp (base : Reg) : Statement (.jmp base) := by
  intro w h
  simp [encode, encJMP, reg3_reg, Except.toOption, bind, Except.bind, pure, Except.pure] at h
  subst h
  simp [Instr.tableMask, Instr.tableMatch, BitVec.and_or_distrib_right, reg_six]

theorem reservedD : Statement (.reservedD) := by
  intro w h
  simp [encode] at h

theorem lea (dr : Reg) (off : BitVec 9) : Statement (.lea dr off) := by
  intro w h
  simp [encode, encLEA, encPC9, reg3_reg, signedField_toInt, Except.toOption, bind, Except.bind, pure, Except.pure] at h
  subst h
  simp [Instr.tableMask, Instr.tableMatch, BitVec.and_or_distrib_right, reg_nine, setWidth_and_eq_zero]

theorem trapGetc : Statement (.trapGetc) := by
  intro w h
  obtain rfl := Option.some.inj h
  rfl

theorem trapOut : Statement (.trapOut) := by
  intro w h
  obtain rfl := Option.some.inj h
  rfl

theorem trapPuts : Statement (.trapPuts) := by
  intro w h
  obtain rfl := Option.some.inj h
  rfl

theorem trapIn : Statement (.trapIn) := by
  intro w h
  obtain rfl := Option.some.inj h
  rfl

theorem trapPutsp : Statement (.trapPutsp) := by
  intro w h
  obtain rfl := Option.some.inj h
  rfl

theorem trapHalt : Statement (.trapHalt) := by
  intro w h
  obtain rfl := Option.some.inj h
  rfl

theorem trap (vec : BitVec 8) : Statement (.trap vec) := by
  intro w h
  simp [encode, encTRAP, u8_byte, Except.toOption, bind, Except.bind, pure, Except.pure] at h
  subst h
  simp [Instr.tableMask, Instr.tableMatch, BitVec.and_or_distrib_right, setWidth_and_eq_zero]

end Sys2Proof.Laws.EncodesTableRow
end

