-- ==== Sys2Proof/Tests/Slice0.lean ====
section
/-! SUPPORT. The model's own tests: expected values from spec/95_test_vectors.md (named V-...) and from the encodings of
30_encoding.md R56, R57; and for each statement with hypotheses a witness that they can be met, clause by clause. -/

namespace Sys2Proof.Tests

open Sys2Proof Sys2Proof.Machine

/-! ## Helpers -/

/-- The state of a step vector: PC, the cells, registers zero, COND none, a sink, no prompt (95_test_vectors.md
section 0). -/
def machine (pc : Word) (mem : Memory) : State :=
  { State.reset with pc := pc, mem := mem, inPrompt := [], sinkAttached := true }

/-- The next state of an outcome, if it is one. -/
def nextOf (o : Host.Outcome State Fault Refusal) : Option State :=
  match o with
  | .next t => some t
  | .fault _ => none
  | .refused _ => none

/-- A register, COND and PC. -/
def rcp (r : Reg) (s : State) : Word × Word × Word :=
  (s.reg r, s.cond, s.pc)

/-- The error, the run state and the step count. -/
def ers (s : State) : Option Condition × RunState × Nat :=
  (s.error, s.runState, s.steps)

/-- The log, the sink calls and COND. -/
def io (s : State) : List Byte × List (List Byte) × Word :=
  (s.outlog, s.chunks, s.cond)

/-! ## Well-formedness -/

theorem test_wellFormed_rejects_service_20 : (Instr.trap 0x20#8).wellFormed = false := by decide

theorem test_wellFormed_rejects_service_21 : (Instr.trap 0x21#8).wellFormed = false := by decide

theorem test_wellFormed_rejects_service_22 : (Instr.trap 0x22#8).wellFormed = false := by decide

theorem test_wellFormed_rejects_service_23 : (Instr.trap 0x23#8).wellFormed = false := by decide

theorem test_wellFormed_rejects_service_24 : (Instr.trap 0x24#8).wellFormed = false := by decide

theorem test_wellFormed_rejects_service_25 : (Instr.trap 0x25#8).wellFormed = false := by decide

theorem test_wellFormed_accepts_boundary_vectors :
    (Instr.trap 0x1F#8).wellFormed = true ∧ (Instr.trap 0x26#8).wellFormed = true := by decide

/-! ## Decoding, every constructor, words written from the formats of R56 -/

/-- V-E9: 0000 001 111111101. -/
theorem test_decode_br : decode 0x03FD#16 = .br false false true (-3#9) := by decide

/-- V-D8. -/
theorem test_decode_br_nop : decode 0x0000#16 = .br false false false 0#9 := by decide

/-- V-E2: 0001 010 001 0 00 000. -/
theorem test_decode_addReg : decode 0x1440#16 = .addReg 2 1 0 := by decide

/-- V-D1. -/
theorem test_decode_addReg_ignored : decode 0x1018#16 = .addReg 0 0 0 := by decide

/-- V-D2: 0001 000 000 1 11101. -/
theorem test_decode_addImm : decode 0x103D#16 = .addImm 0 0 (-3#5) := by decide

/-- V-E16: 0010 010 000000101. -/
theorem test_decode_ld : decode 0x2405#16 = .ld 2 5#9 := by decide

/-- V-E22: 0011 111 000000110. -/
theorem test_decode_st : decode 0x3E06#16 = .st 7 6#9 := by decide

/-- V-E13: 0100 1 10000000000. -/
theorem test_decode_jsr : decode 0x4C00#16 = .jsr (-1024#11) := by decide

/-- V-D6. -/
theorem test_decode_jsr_minus_one : decode 0x4FFF#16 = .jsr (-1#11) := by decide

/-- V-D7: 0100 0 11 111 000000. -/
theorem test_decode_jsrr : decode 0x47C0#16 = .jsrr 7 := by decide

/-- V-E6: 0101 011 001 0 00 010. -/
theorem test_decode_andReg : decode 0x5642#16 = .andReg 3 1 2 := by decide

/-- V-E5: 0101 000 000 1 00000. -/
theorem test_decode_andImm : decode 0x5020#16 = .andImm 0 0 0#5 := by decide

/-- V-E18: 0110 010 001 000000. -/
theorem test_decode_ldr : decode 0x6440#16 = .ldr 2 1 0#6 := by decide

/-- V-E19. -/
theorem test_decode_ldr_negative : decode 0x6020#16 = .ldr 0 0 (-32#6) := by decide

/-- V-E24: 0111 010 001 000001. -/
theorem test_decode_str : decode 0x7441#16 = .str 2 1 1#6 := by decide

/-- V-D10. -/
theorem test_decode_reserved8 : decode 0x8000#16 = .reserved8 := by decide

/-- V-E7: 1001 001 000 111111. -/
theorem test_decode_notReg : decode 0x923F#16 = .notReg 1 0 := by decide

/-- V-D3. -/
theorem test_decode_notReg_ignored : decode 0x9000#16 = .notReg 0 0 := by decide

/-- V-E17: 1010 011 000000011. -/
theorem test_decode_ldi : decode 0xA603#16 = .ldi 3 3#9 := by decide

/-- V-E23: 1011 001 000000001. -/
theorem test_decode_sti : decode 0xB201#16 = .sti 1 1#9 := by decide

/-- V-E11: 1100 000 111 000000. -/
theorem test_decode_jmp : decode 0xC1C0#16 = .jmp 7 := by decide

/-- V-D9. -/
theorem test_decode_jmp_ignored : decode 0xC3FF#16 = .jmp 7 := by decide

/-- V-D11. -/
theorem test_decode_reservedD : decode 0xD123#16 = .reservedD := by decide

/-- V-E21: 1110 001 000000101. -/
theorem test_decode_lea : decode 0xE205#16 = .lea 1 5#9 := by decide

/-- R140: 1111 0000 00100000. -/
theorem test_decode_trapGetc : decode 0xF020#16 = .trapGetc := by decide

/-- R140. -/
theorem test_decode_trapOut : decode 0xF021#16 = .trapOut := by decide

/-- R140. -/
theorem test_decode_trapPuts : decode 0xF022#16 = .trapPuts := by decide

/-- R140. -/
theorem test_decode_trapIn : decode 0xF023#16 = .trapIn := by decide

/-- R140. -/
theorem test_decode_trapPutsp : decode 0xF024#16 = .trapPutsp := by decide

/-- V-D4, bits 11..8 ignored. -/
theorem test_decode_trapHalt : decode 0xF125#16 = .trapHalt := by decide

/-- V-D5. -/
theorem test_decode_trap : decode 0xFFFF#16 = .trap 0xFF#8 := by decide

/-- V-E28. -/
theorem test_decode_trap_26 : decode 0xF026#16 = .trap 0x26#8 := by decide

theorem test_decodeTableWord : decodeTableWord 16 0x103D = some (.addImm 0 0 (-3#5)) ∧
    decodeTableWord 17 0 = none := by decide

/-! ## Codec and encoder -/

/-- V-S1, V-K1 to V-K7. -/
theorem test_packSigned_boundaries :
    packSigned (-16) 5 = .ok 0x10 ∧ packSigned 15 5 = .ok 0x0F ∧ packSigned 16 5 = .error (.fieldOverflow 5 16) ∧
      packSigned (-17) 5 = .error (.fieldOverflow 5 (-17)) ∧ packSigned (-1) 9 = .ok 0x1FF ∧
      packSigned 256 9 = .error (.fieldOverflow 9 256) ∧ packSigned (-1024) 11 = .ok 0x400 := by decide

/-- V-K8, V-K9, V-K10. -/
theorem test_packSigned_widths :
    packSigned 0 1 = .error (.fieldOverflow 1 0) ∧ packSigned 0 65 = .error (.fieldOverflow 65 0) ∧
      packSigned (-2 ^ 63) 64 = .ok (2 ^ 63) := by decide

/-- V-K11 to V-K15. -/
theorem test_unpackSigned :
    unpackSigned 0x1D 5 = -3 ∧ unpackSigned 0x3D 5 = -3 ∧ unpackSigned 0x0F 5 = 15 ∧ unpackSigned 0x10 5 = -16 ∧
      unpackSigned 0x20 6 = -32 := by decide

/-- V-S1, V-E1 to V-E6. -/
theorem test_enc_operate :
    encADD 0 0 (.imm (-3)) = .ok 0x103D#16 ∧ encADD 2 1 (.reg 0) = .ok 0x1440#16 ∧
      encADD 8 0 (.reg 0) = .error (.fieldOverflow 3 8) ∧ encADD 0 9 (.imm 99) = .error (.fieldOverflow 3 9) ∧
      encADD 0 0 (.imm 16) = .error (.fieldOverflow 5 16) ∧ encAND 0 0 (.imm 0) = .ok 0x5020#16 ∧
      encAND 3 1 (.reg 2) = .ok 0x5642#16 := by decide

/-- V-E7 to V-E15. -/
theorem test_enc_control :
    encNOT 1 0 = .ok 0x923F#16 ∧ encBR true true true 0 = .ok 0x0E00#16 ∧
      encBR false false true (-3) = .ok 0x03FD#16 ∧ encJMP 7 = .ok 0xC1C0#16 ∧ encJSR (-1024) = .ok 0x4C00#16 ∧
      encJSR 1024 = .error (.fieldOverflow 11 1024) ∧ encJSRR 3 = .ok 0x40C0#16 ∧
      encJumpSub (.imm 2) = .ok 0x4802#16 ∧ encJumpSub (.reg 3) = .ok 0x40C0#16 := by decide

/-- V-E16 to V-E24. -/
theorem test_enc_load_store :
    encLD 2 5 = .ok 0x2405#16 ∧ encLDI 3 3 = .ok 0xA603#16 ∧ encLDR 0 0 (-32) = .ok 0x6020#16 ∧
      encLDR 0 0 32 = .error (.fieldOverflow 6 32) ∧ encLEA 1 5 = .ok 0xE205#16 ∧ encST 7 6 = .ok 0x3E06#16 ∧
      encSTI 1 1 = .ok 0xB201#16 ∧ encSTR 2 1 1 = .ok 0x7441#16 := by decide

/-- V-E25 to V-E28. -/
theorem test_enc_trap :
    encTRAP 0x25 = .ok 0xF025#16 ∧ encTRAP 256 = .error (.fieldOverflow 8 256) ∧
      encTRAP (-1) = .error (.fieldOverflow 8 (-1)) ∧ encTRAP 0x26 = .ok 0xF026#16 := by decide

/-! ## One step -/

/-- V-S2, R101. -/
theorem test_step_addImm_wraps :
    (nextOf (step
        ((machine 0x3000#16 [(0x3000, 0x1021#16)]).setReg 0 0x7FFF#16))).map
      (rcp 0) =
      some (0x8000#16, 0x0004#16, 0x3001#16) := by decide

/-- V-O1. -/
theorem test_step_addImm_zero :
    (nextOf (step
        ((machine 0x3000#16 [(0x3000, 0x1021#16)]).setReg 0 0xFFFF#16))).map
      (rcp 0) =
      some (0x0000#16, 0x0002#16, 0x3001#16) := by decide

/-- V-O2, DR is both sources. -/
theorem test_step_addReg_same :
    (nextOf (step
        ((machine 0x3000#16 [(0x3000, 0x1000#16)]).setReg 0 0x8000#16))).map
      (rcp 0) =
      some (0x0000#16, 0x0002#16, 0x3001#16) := by decide

/-- V-O10. -/
theorem test_step_addReg_ignored_bits :
    (nextOf (step
        ((machine 0x3000#16 [(0x3000, 0x1018#16)]).setReg 0 0x0003#16))).map
      (rcp 0) =
      some (0x0006#16, 0x0001#16, 0x3001#16) := by decide

/-- V-O5. -/
theorem test_step_andImm_signed :
    (nextOf (step
        ((machine 0x3000#16 [(0x3000, 0x5030#16)]).setReg 0 0x8001#16))).map
      (rcp 0) =
      some (0x8000#16, 0x0004#16, 0x3001#16) := by decide

/-- V-O6. -/
theorem test_step_andReg :
    (nextOf (step
        (((machine 0x3000#16 [(0x3000, 0x5642#16)]).setReg 1 0x00FF#16).setReg 2 0x0F0F#16))).map
      (rcp 3) =
      some (0x000F#16, 0x0001#16, 0x3001#16) := by decide

/-- V-O9. -/
theorem test_step_notReg :
    (nextOf (step
        ((machine 0x3000#16 [(0x3000, 0x903F#16)]).setReg 0 0x8000#16))).map
      (rcp 0) =
      some (0x7FFF#16, 0x0001#16, 0x3001#16) := by decide

/-- V-O11. -/
theorem test_step_notReg_ignored_bits :
    (nextOf (step
        { ((machine 0x3000#16 [(0x3000, 0x9000#16)]).setReg 0 0x0001#16) with cond := 4#16 })).map
      (rcp 0) =
      some (0xFFFE#16, 0x0004#16, 0x3001#16) := by decide

/-- V-C4: a taken branch over the top of memory does not halt. -/
theorem test_step_br_wraps :
    (nextOf (step
        { (machine 0xFFFE#16 [(0xFFFE, 0x0E05#16)]) with cond := 1#16 })).map
      (fun t => (t.pc, ers t)) =
      some (0x0004#16, none, .running none, 1) := by decide

/-- V-C5: not taken at 0xFFFF. -/
theorem test_step_br_end_of_memory :
    (nextOf (step
        { (machine 0xFFFF#16 [(0xFFFF, 0x0805#16)]) with cond := 1#16 })).map
      (fun t => (t.pc, ers t)) =
      some (0x0000#16, none, .halted .endOfMemory, 1) := by decide

/-- V-C6. -/
theorem test_step_jmp :
    (nextOf (step
        ((machine 0x3000#16 [(0x3000, 0xC1C0#16)]).setReg 7 0x3002#16))).map
      (rcp 7) =
      some (0x3002#16, 0x0000#16, 0x3002#16) := by decide

/-- V-C7, V-C12. -/
theorem test_step_jsr_backward :
    (nextOf (step
        { (machine 0x3000#16 [(0x3000, 0x4C00#16)]) with cond := 4#16 })).map
      (rcp 7) =
      some (0x3001#16, 0x0004#16, 0x2C01#16) := by decide

/-- V-C11. -/
theorem test_step_jsr_top :
    (nextOf (step
        (machine 0xFFFF#16 [(0xFFFF, 0x4800#16)]))).map
      (fun t => (rcp 7 t, t.runState)) =
      some ((0x0000#16, 0x0000#16, 0x0000#16), .running none) := by decide

/-- V-C9. -/
theorem test_step_jsrr :
    (nextOf (step
        ((machine 0x3010#16 [(0x3010, 0x40C0#16)]).setReg 3 0x4000#16))).map
      (rcp 7) =
      some (0x3011#16, 0x0000#16, 0x4000#16) := by decide

/-- V-C10. -/
theorem test_step_jsrr_link_first :
    (nextOf (step
        ((machine 0x3010#16 [(0x3010, 0x41C0#16)]).setReg 7 0x4000#16))).map
      (rcp 7) =
      some (0x3011#16, 0x0000#16, 0x3011#16) := by decide

/-- V-M2. -/
theorem test_step_ld_wraps :
    (nextOf (step
        (machine 0xFFF0#16 [(0x00F0, 0xABCD#16), (0xFFF0, 0x20FF#16)]))).map
      (rcp 0) =
      some (0xABCD#16, 0x0004#16, 0xFFF1#16) := by decide

/-- V-M10. -/
theorem test_step_ld_unmapped :
    (nextOf (step
        { (machine 0x3000#16 [(0x3000, 0x2020#16)]) with memWords := 0x3010 })).map
      (fun t => (rcp 0 t, ers t)) =
      some ((0x0000#16, 0x0000#16, 0x3001#16),
        some (.unmappedAccess 0x3021#16), .halted (.condition (.unmappedAccess 0x3021#16)), 0) := by decide

/-- V-M3. -/
theorem test_step_ldi :
    (nextOf (step
        (machine 0x3004#16 [(0x3004, 0xA603#16), (0x3007, 0x2468#16), (0x3008, 0x3007#16)]))).map
      (rcp 3) =
      some (0x2468#16, 0x0001#16, 0x3005#16) := by decide

/-- V-M12. -/
theorem test_step_ldi_second_read :
    (nextOf (step
        { ((machine 0x3000#16 [(0x3000, 0xA005#16), (0x3006, 0x4000#16)]).setReg 0 0x5555#16) with memWords := 0x3010 })).map
      (fun t => (t.reg 0, t.error)) =
      some (0x5555#16, some (.unmappedAccess 0x4000#16)) := by decide

/-- V-M4. -/
theorem test_step_ldr_wraps :
    (nextOf (step
        ((machine 0x3000#16 [(0x0000, 0x0005#16), (0x3000, 0x6041#16)]).setReg 1 0xFFFF#16))).map
      (rcp 0) =
      some (0x0005#16, 0x0001#16, 0x3001#16) := by decide

/-- V-M5. -/
theorem test_step_lea_sets_flags :
    (nextOf (step
        (machine 0x7F00#16 [(0x7F00, 0xE0FF#16)]))).map
      (rcp 0) =
      some (0x8000#16, 0x0004#16, 0x7F01#16) := by decide

/-- V-M6. -/
theorem test_step_lea_negative :
    (nextOf (step
        (machine 0x3000#16 [(0x3000, 0xE1FF#16)]))).map
      (rcp 0) =
      some (0x3000#16, 0x0001#16, 0x3001#16) := by decide

/-- V-M7. -/
theorem test_step_st :
    (nextOf (step
        ((machine 0x3002#16 [(0x3002, 0x3E06#16)]).setReg 7 0x3002#16))).map
      (fun t => (t.mem, t.cond)) =
      some ([(0x3002, 0x3E06#16), (0x3009, 0x3002#16)], 0x0000#16) := by decide

/-- V-M11. -/
theorem test_step_st_unmapped :
    (nextOf (step
        { ((machine 0x3000#16 [(0x3000, 0x3020#16)]).setReg 0 0x5555#16) with memWords := 0x3010 })).map
      (fun t => (t.mem, t.error)) =
      some ([(0x3000, 0x3020#16)], some (.unmappedAccess 0x3021#16)) := by decide

/-- V-M8. -/
theorem test_step_sti :
    (nextOf (step
        ((machine 0x3003#16 [(0x3003, 0xB201#16), (0x3005, 0x3006#16)]).setReg 1 0xFFFE#16))).map
      (fun t => (t.mem.read 0x3006, t.pc)) =
      some (0xFFFE#16, 0x3004#16) := by decide

/-- V-M9. -/
theorem test_step_str :
    (nextOf (step
        (((machine 0x3000#16 [(0x3000, 0x7441#16)]).setReg 1 0x3006#16).setReg 2 0x2468#16))).map
      (fun t => (t.mem.read 0x3007, t.cond)) =
      some (0x2468#16, 0x0000#16) := by decide

/-- R30: writing what an unlisted cell reads as removes the entry. -/
theorem test_step_store_zero_unlists :
    (nextOf (step
        ((machine 0x3000#16 [(0x3000, 0x7441#16), (0x3007, 0x1111#16)]).setReg 1 0x3006#16))).map
      (fun t => t.mem) =
      some [(0x3000, 0x7441#16)] := by decide

/-- V-T1, V-T14. -/
theorem test_step_getc_zero_no_link :
    (nextOf (step
        { (((machine 0x3000#16 [(0x3000, 0xF020#16)]).setReg 0 0x1111#16).setReg 7 0x1234#16) with inq := [0#8, 1#8] })).map
      (fun t => (rcp 0 t, t.reg 7, t.inq)) =
      some ((0x0000#16, 0x0002#16, 0x3001#16), 0x1234#16, [1#8]) := by decide

/-- V-S7. -/
theorem test_step_getc_suspends :
    (nextOf (step
        (machine 0x3000#16 [(0x3000, 0xF020#16)]))).map
      (fun t => (rcp 0 t, ers t)) =
      some ((0x0000#16, 0x0000#16, 0x3001#16), none, .running (some .getc), 0) := by decide

/-- V-T3. -/
theorem test_step_out :
    (nextOf (step
        ((machine 0x3000#16 [(0x3000, 0xF021#16)]).setReg 0 0x0141#16))).map
      io =
      some ([0x41#8], [[0x41#8]], 0x0000#16) := by decide

/-- V-T4, a cell with low byte 0 does not end the string. -/
theorem test_step_puts :
    (nextOf (step
        (machine 0x3000#16 [(0, 0x4100#16), (1, 0x0042#16), (0x3000, 0xF022#16)]))).map
      io =
      some ([0x00#8, 0x42#8], [[0x00#8, 0x42#8]], 0x0000#16) := by decide

/-- V-T5, the sink gets the empty chunk. -/
theorem test_step_puts_empty :
    (nextOf (step
        (machine 0x3000#16 [(0x3000, 0xF022#16)]))).map
      io =
      some ([], [[]], 0x0000#16) := by decide

/-- V-T6. -/
theorem test_step_putsp_low_zero :
    (nextOf (step
        (machine 0x3000#16 [(0, 0x4100#16), (0x3000, 0xF024#16)]))).map
      io =
      some ([0x00#8, 0x41#8], [[0x00#8, 0x41#8]], 0x0000#16) := by decide

/-- V-S6. -/
theorem test_step_putsp_home :
    (nextOf (step
        (machine 0x3000#16 [(0, 0x6F48#16), (1, 0x656D#16), (0x3000, 0xF024#16)]))).map
      io =
      some ([0x48#8, 0x6F#8, 0x6D#8, 0x65#8], [[0x48#8, 0x6F#8, 0x6D#8, 0x65#8]], 0x0000#16) := by decide

/-- V-T8. -/
theorem test_step_in :
    (nextOf (step
        { (machine 0x3000#16 [(0x3000, 0xF023#16)]) with inq := [0x79#8], inPrompt := [0x3E#8] })).map
      (fun t => (rcp 0 t, t.chunks)) =
      some ((0x0079#16, 0x0001#16, 0x3001#16), [[0x3E#8]]) := by decide

/-- V-T9. -/
theorem test_step_in_suspends :
    (nextOf (step
        { (machine 0x3000#16 [(0x3000, 0xF023#16)]) with inPrompt := [0x3E#8] })).map
      (fun t => (t.outlog, t.runState, t.steps)) =
      some ([0x3E#8], .running (some .inChar), 0) := by decide

/-- V-T12. -/
theorem test_step_halt :
    (nextOf (step
        (machine 0x3000#16 [(0x3000, 0xF025#16)]))).map
      (fun t => (t.pc, t.status, ers t)) =
      some (0x3001#16, some .success, none, .halted .halt, 0) := by decide

/-- V-T10. -/
theorem test_step_trap_undefined :
    (nextOf (step
        (machine 0x3000#16 [(0x3000, 0xF026#16)]))).map
      (fun t => (t.pc, t.status, ers t)) =
      some (0x3001#16, some .failure, some (.badTrap 0x26#8), .halted (.condition (.badTrap 0x26#8)), 0) := by decide

/-- V-T11. -/
theorem test_step_trap_zero :
    (nextOf (step
        (machine 0x3000#16 [(0x3000, 0xF000#16)]))).map
      (fun t => t.error) =
      some (some (.badTrap 0x00#8)) := by decide

/-- V-R1. -/
theorem test_step_reserved8 :
    (nextOf (step
        (machine 0x3000#16 [(0x3000, 0x8000#16)]))).map
      (fun t => (t.pc, t.error)) =
      some (0x3001#16, some (.badOpcode (some 8#4))) := by decide

/-- V-R2. -/
theorem test_step_reservedD :
    (nextOf (step
        (machine 0x3000#16 [(0x3000, 0xD123#16)]))).map
      (fun t => (t.pc, t.error)) =
      some (0x3001#16, some (.badOpcode (some 13#4))) := by decide

/-- V-H1. -/
theorem test_step_cap :
    (nextOf (step
        { (machine 0x3000#16 [(0x3000, 0x1021#16)]) with stepLimit := some 0 })).map
      (fun t => (t.pc, ers t)) =
      some (0x3000#16, some .stepLimit, .halted (.condition .stepLimit), 0) := by decide

/-- V-S-D, MEM_WORDS = 0x3000. -/
theorem test_step_no_cell :
    (nextOf (step
        { (machine 0x3000#16 []) with memWords := 0x3000 })).map
      (fun t => (t.pc, ers t)) =
      some (0x3001#16, some (.badOpcode none), .halted (.condition (.badOpcode none)), 0) := by decide

/-- V-H10. -/
theorem test_step_memory_end :
    (nextOf (step
        { (machine 0x3000#16 []) with memWords := 0x3001 })).map
      (fun t => (t.pc, t.status, t.runState)) =
      some (0x3001#16, some .success, .halted .endOfMemory) := by decide

/-- The host's probe of a table row: the word is the very next instruction, from reset. -/
theorem test_withFetchWord :
    (nextOf (step (State.reset.withFetchWord 16 0x103D))).map (rcp 0) = some (0xFFFD#16, 0x0004#16, 0x3001#16) := by
  decide

/-! ## Host calls -/

/-- V-S7 step 2: a step is refused while a read is pending. -/
theorem test_step_refused_pending :
    (match step { machine 0x3001#16 [] with runState := .running (some .getc) } with
      | .refused r => some r
      | .next _ => none
      | .fault _ => none) = some .stepWhileReadPending := by decide

/-- V-S7 step 3. -/
theorem test_push_resumes :
    (nextOf (State.push { machine 0x3001#16 [] with runState := .running (some .getc) } 0x5A)).map
        (fun t => (rcp 0 t, ers t, t.inq)) =
      some ((0x005A#16, 0x0001#16, 0x3001#16), (none, .running none, 1), []) := by decide

/-- V-H7, and R210: a byte joins the queue while no read is pending. -/
theorem test_push_queue_or_refuse :
    (nextOf ((machine 0x3000#16 []).push 256)).isNone = true ∧
      (nextOf ((machine 0x3000#16 []).push 0x41)).map (fun t => t.inq) = some [0x41#8] := by decide

/-- V-H4. -/
theorem test_push_idle : (nextOf (State.push { machine 0x3000#16 [] with runState := .idle } 0x41)).isNone = true := by
  decide

/-- V-H6. -/
theorem test_abort_pending :
    (nextOf (State.abort { machine 0x3001#16 [] with runState := .running (some .getc) })).map
        (fun t => (rcp 0 t, ers t)) =
      some ((0x0000#16, 0x0000#16, 0x3001#16), some .cancelled, .halted (.condition .cancelled), 0) := by decide

/-- V-H5. -/
theorem test_start_while_running : (nextOf ((machine 0x3000#16 []).start [] {})).isNone = true := by decide

/-- D9: `start` takes the memory sizes 1 and 65,536, and refuses 0 and 65,537. -/
theorem test_start_memory_sizes :
    (nextOf (State.powerOn.start [] { memWords := 0 })).isNone = true ∧
      (nextOf (State.powerOn.start [] { memWords := 1 })).isSome = true ∧
      (nextOf (State.powerOn.start [] { memWords := 65536 })).isSome = true ∧
      (nextOf (State.powerOn.start [] { memWords := 65537 })).isNone = true := by decide

/-- V-H9 and R205: registers start at zero, the image is cut at the memory size. -/
theorem test_start_truncates :
    (nextOf (State.start { machine 0x3000#16 [(5, 7#16)] with runState := .halted .halt } [0x1021#16, 0xF025#16]
        { memWords := 0x3001, lowmem := [0x6F48#16] })).map (fun t => (t.mem, t.pc)) =
      some ([(0, 0x6F48#16), (0x3000, 0x1021#16)], 0x3000#16) := by decide

/-- V-S5, scenario B. -/
theorem test_run_scenario_b :
    (match State.powerOn.run 5 [0xF020#16, 0xF025#16] { input0 := [65#8], inPrompt := [] } [] with
      | .finished o _ => some (o.status, o.error, o.regs.get 0, o.cond, o.pc)
      | .rejected _ => none
      | .stuck _ => none
      | .unfinished _ => none) = some (.success, none, 65#16, 1#16, 0x3002#16) := by decide

/-- V-S7 as a run: the host answers the pending read. -/
theorem test_run_suspension :
    (match State.powerOn.run 5 [0xF020#16, 0xF025#16] { inPrompt := [] } [.push 0x5A] with
      | .finished o _ => some (o.status, o.regs.get 0, o.pc)
      | .rejected _ => none
      | .stuck _ => none
      | .unfinished _ => none) = some (.success, 0x5A#16, 0x3002#16) := by decide

/-! ## Witnesses: the hypotheses of each statement can be met, clause by clause, at the ends of their ranges -/

/-! ### Encoding -/

theorem witness_DecodeEncodeRoundTrip :
    (Instr.trap 0x26#8).wellFormed = true ∧ (Instr.trap 0x26#8).isReserved = false ∧
      (decode 0xC1C0#16).isReserved = false ∧ 0xC1C0#16 &&& ignoredMask 0xC1C0#16 = canonicalIgnored 0xC1C0#16 ∧
      (decode 0xC3FF#16).isReserved = false ∧ 0xC3FF#16 &&& ignoredMask 0xC3FF#16 ≠ canonicalIgnored 0xC3FF#16 ∧
      (decode 0x923F#16).isReserved = false ∧ 0x923F#16 &&& ignoredMask 0x923F#16 = canonicalIgnored 0x923F#16 := by
  decide

theorem witness_DecodeIgnoresUnusedBits : 0x0F00#16 &&& ignoredMask 0xF025#16 = 0x0F00#16 := by decide

theorem witness_TrapVectorsNameServices :
    fieldNat 0xFF25#16 15 12 = 0xF ∧ serviceOf 0x1F#8 = none ∧ serviceOf 0x26#8 = none := by decide

theorem witness_DecodeIsOntoWellFormed : (Instr.trap 0x1F#8).wellFormed = true := by decide

theorem witness_PackSignedChecksRange :
    (1 < 2 ∨ 64 < 1) ∧ (65 < 2 ∨ 64 < 65) ∧ ((16 : Int) < -2 ^ (5 - 1) ∨ (2 : Int) ^ (5 - 1) - 1 < 16) ∧
      ((-17 : Int) < -2 ^ (5 - 1) ∨ (2 : Int) ^ (5 - 1) - 1 < -17) ∧ (-2 : Int) ^ (2 - 1) ≤ -2 ∧
      (-2 : Int) ≤ 2 ^ (2 - 1) - 1 ∧ -2 ^ (64 - 1) ≤ (2 : Int) ^ 63 - 1 ∧
      (2 : Int) ^ 63 - 1 ≤ 2 ^ (64 - 1) - 1 := by
  decide

theorem witness_CodecRoundTrip :
    -2 ^ (64 - 1) ≤ (-2 : Int) ^ 63 ∧ (-2 : Int) ^ 63 ≤ 2 ^ (64 - 1) - 1 ∧ 3 < 2 ^ 2 ∧
      2 ^ 64 - 1 < 2 ^ 64 := by decide

/-! ### The instruction cycle -/

/-- A state below the cap: no cap at all, or one step left. -/
theorem machine_belowCap (pc : Word) (mem : Memory) : (machine pc mem).BelowCap := by
  intro limit h
  cases h

theorem witness_StepRunsDecodedInstruction :
    (machine 0xFFFF#16 [(0xFFFF, 0x1021#16)]).runState = .running none ∧
      (machine 0xFFFF#16 [(0xFFFF, 0x1021#16)]).BelowCap ∧
      uval (machine 0xFFFF#16 [(0xFFFF, 0x1021#16)]).pc < (machine 0xFFFF#16 [(0xFFFF, 0x1021#16)]).memWords ∧
      decode ((machine 0xFFFF#16 [(0xFFFF, 0x1021#16)]).mem.read 0xFFFF) = .addImm 0 0 1#5 :=
  ⟨rfl, machine_belowCap _ _, by decide, by decide⟩

theorem witness_StepCapHalts :
    State.runState { machine 0x3000#16 [] with stepLimit := some 3, steps := 3 } = .running none ∧
      State.stepLimit { machine 0x3000#16 [] with stepLimit := some 3, steps := 3 } = some 3 ∧
      3 ≤ State.steps { machine 0x3000#16 [] with stepLimit := some 3, steps := 3 } := by decide

theorem witness_FetchIncrementsAndChecksCell :
    (machine 0x3000#16 []).BelowCap ∧
      State.memWords { machine 0x3000#16 [] with memWords := 0x3000 } ≤ uval (machine 0x3000#16 []).pc ∧
      uval (machine 0x3000#16 []).pc < State.memWords { machine 0x3000#16 [] with memWords := 0x3001 } :=
  ⟨machine_belowCap _ _, by decide, by decide⟩

theorem witness_FetchSeesStore :
    (∃ t, State.memWrite { machine 0x3000#16 [] with memWords := 0x3001 } 0x3000#16 0x1021#16 = .ok t) ∧
      (0x2FFF#16 : Word) ≠ 0x3000#16 :=
  ⟨⟨_, rfl⟩, by decide⟩

/-! ### Words of each encoding -/

/-- AddRegisterForm, AddImmediateForm, AndRegisterForm, AndImmediateForm, NotComplements. -/
theorem witness_operate_words :
    0x1FC7#16 &&& 0xF020#16 = 0x1000#16 ∧ 0x1FFF#16 &&& 0xF020#16 = 0x1020#16 ∧
      0x5642#16 &&& 0xF020#16 = 0x5000#16 ∧ 0x5030#16 &&& 0xF020#16 = 0x5020#16 ∧
      0x9000#16 &&& 0xF000#16 = 0x9000#16 := by decide

/-- BranchTakenWhenMaskMeetsFlag, JumpThroughRegister, JumpSubroutineRelative, JumpSubroutineRegister. -/
theorem witness_control_words :
    0x0E05#16 &&& 0xF000#16 = 0x0000#16 ∧ 0xC3FF#16 &&& 0xF000#16 = 0xC000#16 ∧
      0x4FFF#16 &&& 0xF800#16 = 0x4800#16 ∧ 0x47C0#16 &&& 0xF800#16 = 0x4000#16 := by decide

/-- LoadPcRelative, LoadIndirect, LoadBaseOffset, LoadEffectiveAddress, StorePcRelative, StoreIndirect,
StoreBaseOffset. -/
theorem witness_load_store_words :
    0x2405#16 &&& 0xF000#16 = 0x2000#16 ∧ 0xA603#16 &&& 0xF000#16 = 0xA000#16 ∧
      0x6440#16 &&& 0xF000#16 = 0x6000#16 ∧ 0xE205#16 &&& 0xF000#16 = 0xE000#16 ∧
      0x3E06#16 &&& 0xF000#16 = 0x3000#16 ∧ 0xB201#16 &&& 0xF000#16 = 0xB000#16 ∧
      0x7441#16 &&& 0xF000#16 = 0x7000#16 := by decide

/-- GetcReadsOrSuspends, OutEmitsLowByte, PutsWritesString, InPromptsThenReads, PutspWritesPackedString,
HaltEndsRunWithSuccess, UndefinedVectorRaisesBadTrap. -/
theorem witness_trap_words :
    0xF120#16 &&& 0xF0FF#16 = 0xF020#16 ∧ 0xF021#16 &&& 0xF0FF#16 = 0xF021#16 ∧
      0xF022#16 &&& 0xF0FF#16 = 0xF022#16 ∧ 0xF023#16 &&& 0xF0FF#16 = 0xF023#16 ∧
      0xF024#16 &&& 0xF0FF#16 = 0xF024#16 ∧ 0xF125#16 &&& 0xF0FF#16 = 0xF025#16 ∧
      0xF01F#16 &&& 0xF000#16 = 0xF000#16 ∧ fieldNat 0xF01F#16 7 0 < 0x20 ∧
      0xF026#16 &&& 0xF000#16 = 0xF000#16 ∧ 0x25 < fieldNat 0xF026#16 7 0 ∧
      (0x1F#8).toNat < 0x20 ∧ 0x25 < (0x26#8).toNat := by decide

/-- ReservedOpcodesRaiseBadOpcode. -/
theorem witness_reserved_words :
    0x8FFF#16 &&& 0xF000#16 = 0x8000#16 ∧ 0xD123#16 &&& 0xF000#16 = 0xD000#16 := by decide

/-! ### Loads and stores: an address in the last cell, and one just past it -/

/-- The state after the fetch at 0x3000, in a memory of 0x3010 cells. -/
def small (mem : Memory) : State :=
  { machine 0x3001#16 mem with memWords := 0x3010 }

/-- LoadPcRelative, StorePcRelative: offsets 14 and 15. -/
theorem witness_pcRelative_clauses :
    uval ((small []).pc + BitVec.ofInt 16 (14#9).toInt) < (small []).memWords ∧
      (small []).memWords ≤ uval ((small []).pc + BitVec.ofInt 16 (15#9).toInt) := by decide

/-- LoadIndirect, StoreIndirect: both accesses find a cell; the first finds none; only the second finds none. -/
theorem witness_indirect_clauses :
    (uval ((small [(0x300F, 0x300F#16)]).pc + BitVec.ofInt 16 (14#9).toInt) < 0x3010 ∧
        uval ((small [(0x300F, 0x300F#16)]).mem.read 0x300F) < 0x3010) ∧
      0x3010 ≤ uval ((small []).pc + BitVec.ofInt 16 (15#9).toInt) ∧
      0x3010 ≤ uval ((small [(0x300F, 0x3010#16)]).mem.read 0x300F) := by decide

/-- LoadBaseOffset, StoreBaseOffset: a negative offset from the end, and offset 0 at it. -/
theorem witness_baseOffset_clauses :
    uval (((small []).setReg 1 0x3010#16).reg 1 + BitVec.ofInt 16 (-1#6).toInt) < 0x3010 ∧
      0x3010 ≤ uval (((small []).setReg 1 0x3010#16).reg 1 + BitVec.ofInt 16 (0#6).toInt) := by decide

/-! ### Services -/

/-- GetcReadsOrSuspends, InPromptsThenReads: a queue of one byte, and an empty one. -/
theorem witness_read_clauses :
    State.inq { machine 0x3001#16 [] with inq := [255#8] } = 255#8 :: [] ∧
      (machine 0x3001#16 []).inq = [] := by decide

/-- PutsWritesString, PutspWritesPackedString: the string of one cell in the last cell of memory wraps to the word 0 at
address 0. -/
theorem witness_string_ends :
    (∀ i < 1, ((machine 0x3001#16 [(0xFFFF, 0x4142#16)]).setReg 0 0xFFFF#16).stringGoesOn i) ∧
      (uval (((machine 0x3001#16 [(0xFFFF, 0x4142#16)]).setReg 0 0xFFFF#16).reg 0) + 1) % 65536 < 65536 ∧
      ((machine 0x3001#16 [(0xFFFF, 0x4142#16)]).setReg 0 0xFFFF#16).stringCell 1 = 0x0000#16 := by
  simp only [State.stringGoesOn]
  decide

/-- PutsWritesString, PutspWritesPackedString: the walk runs off a short memory. -/
theorem witness_string_unmapped :
    (∀ i < 1, ((small [(0x300F, 0x4142#16)]).setReg 0 0x300F#16).stringGoesOn i) ∧
      0x3010 ≤ (uval (((small [(0x300F, 0x4142#16)]).setReg 0 0x300F#16).reg 0) + 1) % 65536 := by
  simp only [State.stringGoesOn]
  decide

/-- The first `n` cells of memory hold 1. -/
def ones (n : Nat) : State :=
  machine 0x3001#16 ((List.range n).map fun a => (a, 1#16))

theorem read_map (l : List Nat) (a : Nat) (h : a ∈ l) : Memory.read (l.map fun b => (b, 1#16)) a = 1#16 := by
  induction l with
  | nil => cases h
  | cons b l ih =>
    simp only [List.map_cons, Memory.read]
    split
    · rfl
    · next hb => exact ih ((List.mem_cons.mp h).resolve_left fun e => hb e.symm)

theorem ones_stringCell (n k : Nat) (h : (uval ((ones n).reg 0) + k) % 65536 < n) : (ones n).stringCell k = 1#16 :=
  read_map (List.range n) _ (List.mem_range.mpr h)

/-- The stuck clause of PUTS and PUTSP: every one of the 65,536 visited cells exists and is not 0 (D29). -/
theorem witness_string_stuck (k : Nat) : (ones 65536).stringGoesOn k := by
  have hk : (uval ((ones 65536).reg 0) + k) % 65536 < 65536 := Nat.mod_lt _ (by norm_num)
  refine ⟨hk, ?_⟩
  rw [ones_stringCell _ _ hk]
  decide

/-! ### Whole-machine rules -/

/-- OnlyTableRegisterWritten, OnlyFlagSettersChangeCond, OnlyStoresChangeMemory, PcFollowsTable, IoFrameOfInstructions,
OnlyBranchReadsCondAndNoneReadsSteps: R7 under GETC, a store at 0x3002, instructions that store nothing. -/
theorem witness_frames :
    (∃ t, exec .trapGetc { machine 0x3001#16 [] with inq := [1#8] } = .next t) ∧
      Instr.trapGetc.regWritten ≠ some 7 ∧ (∃ t, exec (.trapHalt) (machine 0x3001#16 []) = .next t) ∧
      Instr.trapGetc.flagSource = some 0 ∧ (Instr.jsr 0#11).flagSource = none ∧
      (∃ t, exec (.st 0 1#9) (small []) = .next t) ∧ storeAddress (small []) (.st 0 1#9) = some 0x3002#16 ∧
      storeAddress (small []) .trapOut = none ∧ (∀ n z p off, Instr.trapGetc ≠ .br n z p off) :=
  ⟨⟨_, rfl⟩, by decide, ⟨_, rfl⟩, by decide, by decide, ⟨_, rfl⟩, by decide, by decide, by intros; simp⟩

/-- The four ways of R96, from a Running core. -/
theorem witness_ExecutionEndsInFourWays :
    (machine 0x3001#16 []).runState = .running none ∧ (∃ t, exec (.lea 0 0#9) (machine 0x3001#16 []) = .next t) ∧
      (∃ t, exec (.trap 0xFF#8) (machine 0x3001#16 []) = .next t) ∧
      (∃ t, exec .trapHalt (machine 0x3001#16 []) = .next t) ∧
      ∃ t, exec .trapIn (machine 0x3001#16 []) = .next t :=
  ⟨rfl, ⟨_, rfl⟩, ⟨_, rfl⟩, ⟨_, rfl⟩, ⟨_, rfl⟩⟩

/-- A step that ends in the condition `c`. -/
def endsIn (s : State) (c : Condition) : Bool :=
  (nextOf (step s)).map (fun t => t.runState) = some (.halted (.condition c))

/-- Every condition that a step can raise is raised by some step (ConditionsArePrecise, ConditionsHaveTheirCause). -/
theorem witness_conditions :
    endsIn { machine 0x3000#16 [] with memWords := 0x3000 } (.badOpcode none) = true ∧
      endsIn (machine 0x3000#16 [(0x3000, 0x8FFF#16)]) (.badOpcode (some 8#4)) = true ∧
      endsIn (machine 0x3000#16 [(0x3000, 0xD000#16)]) (.badOpcode (some 13#4)) = true ∧
      endsIn (machine 0x3000#16 [(0x3000, 0xF01F#16)]) (.badTrap 0x1F#8) = true ∧
      endsIn { machine 0x3000#16 [(0x3000, 0x200F#16)] with memWords := 0x3010 } (.unmappedAccess 0x3010#16) = true ∧
      endsIn { machine 0x3000#16 [] with stepLimit := some 0 } .stepLimit = true := by decide

/-! ### Invariants and host calls -/

theorem machine_inv : (machine 0x3000#16 [(0x3000, 0x1021#16)]).Inv where
  memWf := by decide
  memInside := by decide
  memWordsLegal := by decide
  condLegal := .inl rfl
  errorIsCause := .inr fun c => by simp [machine, State.reset]
  pendingQueueEmpty := fun svc h => by cases h
  belowCap := fun limit h => by cases h
  sinkSawLog := by decide
  nextFetch := fun _ => .inl (by decide)

theorem witness_StepKeepsInvariant :
    (machine 0x3000#16 [(0x3000, 0x1021#16)]).Inv ∧ ∃ t, step (machine 0x3000#16 [(0x3000, 0x1021#16)]) = .next t :=
  ⟨machine_inv, _, rfl⟩

theorem witness_HostCallsKeepInvariant :
    (machine 0x3000#16 [(0x3000, 0x1021#16)]).Inv ∧
      ∃ t, (machine 0x3000#16 [(0x3000, 0x1021#16)]).calls [.push 65, .step, .abort, .start [] {}] = .next t :=
  ⟨machine_inv, _, rfl⟩

theorem noCell_inv : State.Inv { machine 0x3000#16 [] with memWords := 0x3000 } where
  memWf := by decide
  memInside := by decide
  memWordsLegal := by decide
  condLegal := .inl rfl
  errorIsCause := .inr fun c => by simp [machine, State.reset]
  pendingQueueEmpty := fun svc h => by cases h
  belowCap := fun limit h => by cases h
  sinkSawLog := by decide
  nextFetch := fun _ => .inr (by decide)

theorem witness_InvalidFetchOnlyAtRunStart :
    State.Inv { machine 0x3000#16 [] with memWords := 0x3000 } ∧
      (nextOf (step { machine 0x3000#16 [] with memWords := 0x3000 })).map (fun t => t.error) =
        some (some (.badOpcode none)) :=
  ⟨noCell_inv, by decide⟩

theorem witness_StartResetsAndLoads :
    (∀ p, State.powerOn.runState ≠ .running p) ∧ 1 ≤ Options.memWords { memWords := 1 } ∧
      Options.memWords { memWords := 1 } ≤ 65536 ∧ Options.memWords {} ≤ 65536 :=
  ⟨(fun p h => by cases h), by decide, by decide, by decide⟩

/-- The memory sizes 0 and 65,537 are just outside the legal range; 1 and 65,536, above, are its ends. -/
theorem witness_StartRejectedOrForgets :
    State.reset.runState = .running none ∧ (∀ p, State.powerOn.runState ≠ .running p) ∧
      (∀ p, (State.reset.halt .halt).runState ≠ .running p) ∧
      (Options.memWords { memWords := 0 } = 0 ∨ 65536 < Options.memWords { memWords := 0 }) ∧
      (Options.memWords { memWords := 65537 } = 0 ∨ 65536 < Options.memWords { memWords := 65537 }) :=
  ⟨rfl, (fun p h => by cases h), (fun p h => by cases h), by decide, by decide⟩

/-- Codes 0 and 255 are bytes; -1 and 256 are none; an Idle core refuses every code. -/
theorem witness_PushResumesOrEnqueues :
    State.runState { machine 0x3001#16 [] with runState := .running (some .inChar) } = .running (some .inChar) ∧
      (machine 0x3000#16 []).runState = .running none ∧ ((0 : Int) ≤ 0 ∧ (0 : Int) ≤ 255) ∧
      ((0 : Int) ≤ 255 ∧ (255 : Int) ≤ 255) ∧ (-1 : Int) < 0 ∧ (255 : Int) < 256 ∧
      ∀ p, State.powerOn.runState ≠ .running p :=
  ⟨rfl, rfl, by decide, by decide, by decide, by decide, (fun p h => by cases h)⟩

theorem witness_AbortCancelsRunningCore :
    State.runState { machine 0x3001#16 [] with runState := .running (some .getc) } = .running (some .getc) ∧
      ∀ p, (State.reset.halt .endOfMemory).runState ≠ .running p :=
  ⟨rfl, (fun p h => by cases h)⟩

/-- Each call that the table accepts, from a state it accepts it in. -/
theorem witness_RunStateFollowsTransitionTable :
    (∃ t, State.powerOn.call (.start [] {}) = .next t) ∧ (∃ t, (machine 0x3000#16 []).call .step = .next t) ∧
      (∃ t, State.call { machine 0x3001#16 [] with runState := .running (some .getc) } (.push 0) = .next t) ∧
      (∃ t, (machine 0x3000#16 []).call (.push 255) = .next t) ∧ ∃ t, (machine 0x3000#16 []).call .abort = .next t :=
  ⟨⟨_, rfl⟩, ⟨_, rfl⟩, ⟨_, rfl⟩, ⟨_, rfl⟩, _, rfl⟩

theorem halted_inv : (State.halt { machine 0x3002#16 [] with steps := 2 } .endOfMemory).Inv where
  memWf := by decide
  memInside := by decide
  memWordsLegal := by decide
  condLegal := .inl rfl
  errorIsCause := .inr fun c => by simp [machine, State.reset]
  pendingQueueEmpty := fun svc h => by cases h
  belowCap := fun limit h => by cases h
  sinkSawLog := by decide
  nextFetch := fun h => by cases h

theorem raised_inv : (State.raise (machine 0x3002#16 []) (.badTrap 0xFF#8)).Inv where
  memWf := by decide
  memInside := by decide
  memWordsLegal := by decide
  condLegal := .inl rfl
  errorIsCause := .inr fun c => by simp
  pendingQueueEmpty := fun svc h => by cases h
  belowCap := fun limit h => by cases h
  sinkSawLog := by decide
  nextFetch := fun h => by cases h

/-- A success and a failure. -/
theorem witness_SnapshotCapturesHaltedState :
    ((State.halt { machine 0x3002#16 [] with steps := 2 } .endOfMemory).Inv ∧
        (State.halt { machine 0x3002#16 [] with steps := 2 } .endOfMemory).runState = .halted .endOfMemory) ∧
      (State.raise (machine 0x3002#16 []) (.badTrap 0xFF#8)).Inv ∧
      (State.raise (machine 0x3002#16 []) (.badTrap 0xFF#8)).runState = .halted (.condition (.badTrap 0xFF#8)) :=
  ⟨⟨halted_inv, rfl⟩, raised_inv, rfl⟩

/-- A start that is rejected; a run that ends; one whose rounds are used up; one that waits with no answer left. -/
theorem witness_RunEndsIdleWithSnapshot :
    (∃ r, State.reset.start [] {} = .refused r) ∧
      (∃ o t, State.powerOn.run 1 [0xF025#16] { inPrompt := [] } [] = .finished o t) ∧
      (∃ t, State.powerOn.run 0 [0xF025#16] { inPrompt := [] } [] = .unfinished t) ∧
      ∃ t, State.powerOn.run 2 [0xF020#16] { inPrompt := [] } [] = .unfinished t :=
  ⟨⟨_, rfl⟩, ⟨_, _, rfl⟩, ⟨_, rfl⟩, _, rfl⟩

/-! ### A run that gets stuck: a program that fills the memory between low memory and the image, then PUTS (D29) -/

/-- The run from `s` gets stuck without an answer of the host. -/
def GetsStuck (s : State) : Prop :=
  ∃ rounds, s.drive rounds [] = .stuck .unterminatedString

/-- A Running core with no step cap and a full-size memory. -/
structure Free (s : State) : Prop where
  running : s.runState = .running none
  noCap : s.stepLimit = none
  size : s.memWords = 65536

theorem Free.step {s : State} (h : Free s) (i : Instr) (fetched : decode (s.mem.read (uval s.pc)) = i) :
    step s = exec i s.advancePc := by
  have hm : uval s.pc < s.memWords := by rw [h.size]; exact s.pc.isLt
  simp [Machine.step, State.stepRefusal, h.running, State.capReached, h.noCap, State.fetch, hm, fetched]

theorem Free.drive_next {s t : State} (h : Free s) (e : Machine.step s = .next t) (rounds : Nat) :
    s.drive (rounds + 1) [] = t.drive rounds [] := by
  rw [State.drive]
  simp only [State.snapshot, h.running, e]

theorem Free.drive_fault {s : State} {f : Fault} (h : Free s) (e : Machine.step s = .fault f) :
    s.drive 1 [] = .stuck f := by
  rw [State.drive]
  simp only [State.snapshot, h.running, e]

theorem Free.getsStuck_of_next {s t : State} (h : Free s) {i : Instr}
    (fetched : decode (s.mem.read (uval s.pc)) = i) (next : exec i s.advancePc = .next t) (later : GetsStuck t) :
    GetsStuck s := by
  obtain ⟨rounds, e⟩ := later
  exact ⟨rounds + 1, (h.drive_next ((h.step i fetched).trans next) rounds).trans e⟩

/-- The loop of the program at `pc`: R1 is `k`, COND follows it, and every cell from `j` on, and cell 0, is not 0. -/
structure Filling (pc : Word) (k j : Nat) (s : State) : Prop extends Free s where
  atPc : s.pc = pc
  r0 : s.reg 0 = 0x0000#16
  r1 : s.reg 1 = BitVec.ofNat 16 k
  flags : s.cond = signCond (BitVec.ofNat 16 k)
  store : s.mem.read 0x3001 = 0x7240#16
  count : s.mem.read 0x3002 = 0x127F#16
  back : s.mem.read 0x3003 = 0x03FD#16
  puts : s.mem.read 0x3004 = 0xF022#16
  nonzero : ∀ a < 65536, a = 0 ∨ j ≤ a → s.mem.read a ≠ 0x0000#16

theorem runStateAt_of_lt {s : State} {npc : Nat} (h : npc < s.memWords) : s.runStateAt npc = s.runState := if_pos h

/-- PUTS at the end of the loop walks a full memory. -/
theorem Filling.ends {s : State} (h : Filling 0x3004#16 0 1 s) : GetsStuck s := by
  have goesOn : ∀ i < 65536, s.advancePc.stringGoesOn i := fun i _ => by
    have lt : (uval (s.reg 0) + i) % 65536 < 65536 := Nat.mod_lt _ (by norm_num)
    exact ⟨by rw [show s.advancePc.memWords = 65536 from h.size]; exact lt, h.nonzero _ lt (by omega)⟩
  have fetched : decode (s.mem.read (uval s.pc)) = .trapPuts := by
    rw [h.atPc]; exact (congrArg decode h.puts).trans (by decide)
  exact ⟨1, h.drive_fault ((h.step _ fetched).trans (State.stringWalk_sticks _ _ goesOn))⟩

theorem runState_retireSeq {s : State} (h : Free s) (hp : uval s.pc < 0xFFFF) :
    s.advancePc.runStateAt (seqOf s.advancePc.pc) = .running none := by
  rw [State.advancePc, seqOf_add_one]
  exact (runStateAt_of_lt (by rw [show State.memWords _ = 65536 from h.size]; omega)).trans h.running

/-- STR stores R1 in the cell that R1 names. -/
theorem Filling.afterStr {k : Nat} {s : State} (h : Filling 0x3001#16 k (k + 1) s) (h0 : 0 < k) (hk : k < 0x3000)
    (later : ∀ t, Filling 0x3002#16 k k t → GetsStuck t) : GetsStuck s := by
  have hu : uval (s.advancePc.baseOff 1 0#6) = k := by
    have e : s.advancePc.baseOff 1 0#6 = BitVec.ofNat 16 k + sext 0#6 := congrArg (· + sext 0#6) h.r1
    rw [e, show sext 0#6 = 0#16 from rfl, BitVec.add_zero]
    exact Nat.mod_eq_of_lt (by omega)
  have next : exec (.str 1 1 0#6) s.advancePc =
      .next { s.advancePc with mem := s.mem.write k (BitVec.ofNat 16 k) }.retireSeq := by
    rcases s.advancePc.storeFrom_cases 1 (s.advancePc.baseOff 1 0#6) with ⟨-, e⟩ | ⟨hm, -⟩
    · rw [hu] at e
      rw [← h.r1]
      exact e
    · rw [hu, show s.advancePc.memWords = 65536 from h.size] at hm
      omega
  refine h.toFree.getsStuck_of_next (by rw [h.atPc]; exact (congrArg decode h.store).trans (by decide)) next
    (later _ ?_)
  rw [State.retireSeq_eq]
  have other : ∀ a, a ≠ k → (s.mem.write k (BitVec.ofNat 16 k)).read a = s.mem.read a := fun a ha =>
    Memory.read_write_other _ _ ha
  exact {
    running := runState_retireSeq h.toFree (by rw [h.atPc]; decide)
    noCap := h.noCap
    size := h.size
    atPc := by simp [State.advancePc, h.atPc]
    r0 := h.r0
    r1 := h.r1
    flags := h.flags
    store := (other _ (by omega)).trans h.store
    count := (other _ (by omega)).trans h.count
    back := (other _ (by omega)).trans h.back
    puts := (other _ (by omega)).trans h.puts
    nonzero := fun a ha hj => by
      by_cases e : a = k
      · subst e
        rw [Memory.read_write_same]
        intro hz
        have := congrArg BitVec.toNat hz
        rw [BitVec.toNat_ofNat, Nat.mod_eq_of_lt (by omega)] at this
        simp only [BitVec.toNat_ofNat] at this
        omega
      · exact fun hz => h.nonzero a ha (by omega) ((other a e).symm.trans hz) }

/-- ADD counts R1 down. -/
theorem Filling.afterAdd {k : Nat} {s : State} (h : Filling 0x3002#16 (k + 1) (k + 1) s)
    (later : ∀ t, Filling 0x3003#16 k (k + 1) t → GetsStuck t) : GetsStuck s := by
  have hv : s.advancePc.reg 1 + sext (-1#5) = BitVec.ofNat 16 k := by
    rw [show s.advancePc.reg 1 = BitVec.ofNat 16 (k + 1) from h.r1, show sext (-1#5) = 0xFFFF#16 from rfl]
    apply BitVec.eq_of_toNat_eq
    simp only [BitVec.toNat_add, BitVec.toNat_ofNat]
    omega
  have next : exec (.addImm 1 1 (-1#5)) s.advancePc = .next (s.advancePc.afterResult 1 (BitVec.ofNat 16 k)) := by
    rw [← hv, ← State.writeResult_retireSeq]
    rfl
  refine h.toFree.getsStuck_of_next (by rw [h.atPc]; exact (congrArg decode h.count).trans (by decide)) next
    (later _ ?_)
  exact {
    running := runState_retireSeq h.toFree (by rw [h.atPc]; decide)
    noCap := h.noCap
    size := h.size
    atPc := by simp [State.afterResult, State.advancePc, h.atPc]
    r0 := (State.reg_setReg_other s.advancePc _ (by decide)).trans h.r0
    r1 := State.reg_setReg_same s.advancePc _ _
    flags := rfl
    store := h.store
    count := h.count
    back := h.back
    puts := h.puts
    nonzero := h.nonzero }

theorem signCond_of_pos {k : Nat} (h0 : 0 < k) (hk : k < 0x8000) : signCond (BitVec.ofNat 16 k) = 0x0001#16 := by
  have e : sval (BitVec.ofNat 16 k) = k := by
    rw [sval, BitVec.toInt_eq_toNat_cond, BitVec.toNat_ofNat, Nat.mod_eq_of_lt (by omega), if_pos (by omega)]
  rw [signCond, e, if_neg (by omega), if_pos (by omega)]

/-- BRp goes back while R1 is positive. -/
theorem Filling.afterBr {k : Nat} {s : State} (h : Filling 0x3003#16 k (k + 1) s) (hk : k < 0x3000)
    (later : ∀ t, Filling (if k = 0 then 0x3004#16 else 0x3001#16) k (k + 1) t → GetsStuck t) : GetsStuck s := by
  have fetched : decode (s.mem.read (uval s.pc)) = .br false false true (-3#9) := by
    rw [h.atPc]; exact (congrArg decode h.back).trans (by decide)
  have moved {t : State} (free : Free t) (hpc : t.pc = if k = 0 then 0x3004#16 else 0x3001#16)
      (hr : t.regs = s.regs) (hc : t.cond = s.cond) (hm : t.mem = s.mem) :
      Filling (if k = 0 then 0x3004#16 else 0x3001#16) k (k + 1) t :=
    { toFree := free
      atPc := hpc
      r0 := (State.reg_congr hr 0).trans h.r0
      r1 := (State.reg_congr hr 1).trans h.r1
      flags := hc.trans h.flags
      store := hm ▸ h.store
      count := hm ▸ h.count
      back := hm ▸ h.back
      puts := hm ▸ h.puts
      nonzero := hm ▸ h.nonzero }
  by_cases h0 : k = 0
  · have next : exec (.br false false true (-3#9)) s.advancePc = .next s.advancePc.retireSeq := by
      have : branchTaken false false true s.advancePc.cond = false := by
        rw [show s.advancePc.cond = _ from h.flags, h0]; decide
      simp only [exec, execBr, this, Bool.false_eq_true, if_false]
    rw [State.retireSeq_eq] at next
    exact h.toFree.getsStuck_of_next fetched next (later _ (moved
      ⟨runState_retireSeq h.toFree (by rw [h.atPc]; decide), h.noCap, h.size⟩
      (by simp [State.advancePc, h.atPc, h0]) rfl rfl rfl))
  · have target : s.advancePc.pcRel9 (-3#9) = 0x3001#16 := by
      rw [State.pcRel9, show s.advancePc.pc = s.pc + 1#16 from rfl, h.atPc]; decide
    have next : exec (.br false false true (-3#9)) s.advancePc = .next (s.advancePc.redirect 0x3001#16) := by
      have : branchTaken false false true s.advancePc.cond = true := by
        rw [show s.advancePc.cond = _ from h.flags, signCond_of_pos (by omega) (by omega)]; decide
      simp only [exec, execBr, this, if_true, target]
    rw [State.redirect_eq] at next
    refine h.toFree.getsStuck_of_next fetched next (later _ (moved ⟨?_, h.noCap, h.size⟩
      (by rw [if_neg h0]) rfl rfl rfl))
    exact (runStateAt_of_lt (by rw [show s.advancePc.memWords = 65536 from h.size]; decide)).trans h.running

/-- STR, ADD, BRp: the loop fills the cells from `k` down. -/
theorem Filling.getsStuck {k : Nat} (hk : k < 0x3000) :
    ∀ {s : State}, Filling (if k = 0 then 0x3004#16 else 0x3001#16) k (k + 1) s → GetsStuck s := by
  induction k with
  | zero => exact fun h => h.ends
  | succ k ih =>
    intro s h
    rw [if_neg (Nat.succ_ne_zero k)] at h
    exact h.afterStr (by omega) hk fun _ h => h.afterAdd fun _ h => h.afterBr (by omega) fun _ h => ih (by omega) h

/-- LD R1, #4; then STR R1, R1, #0, ADD R1, R1, #-1, BRp #-3; then PUTS; the word 0x2FFF; and `n` words 1. -/
def fillProgram (n : Nat) : List Word :=
  [0x2204#16, 0x7240#16, 0x127F#16, 0x03FD#16, 0xF022#16, 0x2FFF#16] ++ List.replicate n 1#16

/-- The state that `start` leaves for the program, with one word 1 of low memory. -/
def fillStart (n : Nat) : State :=
  resetState (fillProgram n) { lowmem := [1#16], inPrompt := [] }

theorem fillStart_head (n i : Nat) (hi : i < 6) :
    (fillStart n).mem.read (0x3000 + i) =
      [0x2204#16, 0x7240#16, 0x127F#16, 0x03FD#16, 0xF022#16, 0x2FFF#16].getD i 0x0000#16 := by
  have len : (fillProgram n).length = 6 + n := by simp [fillProgram]; omega
  refine (loadWords_read _ _ _ _ _).trans ?_
  rw [len, if_pos (by simp only [Config.origin, Config.memWordsMax]; omega), Nat.add_sub_cancel_left, fillProgram,
    List.getD_append _ _ _ _ (by simpa using hi)]

theorem fillStart_nonzero (n a : Nat) (hn : n = 53242) (ha : a < 65536) (hj : a = 0 ∨ 0x3000 ≤ a) :
    (fillStart n).mem.read a ≠ 0x0000#16 := by
  have len : (fillProgram n).length = 6 + n := by simp [fillProgram]; omega
  rcases hj with rfl | hj
  · rw [show (fillStart n).mem.read 0 = 1#16 from
      (loadWords_read _ _ _ _ _).trans (if_neg fun h => absurd h.2.1 (by decide))]
    decide
  · obtain ⟨i, rfl⟩ := Nat.exists_eq_add_of_le hj
    by_cases hi : i < 6
    · rw [fillStart_head n i hi]
      have : ∀ i < 6,
          [0x2204#16, 0x7240#16, 0x127F#16, 0x03FD#16, 0xF022#16, 0x2FFF#16].getD i 0x0000#16 ≠ 0x0000#16 := by decide
      exact this i hi
    · have e : (fillStart n).mem.read (0x3000 + i) = 1#16 := by
        refine (loadWords_read _ _ _ _ _).trans ?_
        rw [len, if_pos (by simp only [Config.origin, Config.memWordsMax]; omega), Nat.add_sub_cancel_left,
          fillProgram, List.getD_append_right _ _ _ _ (by simp; omega), List.getD_replicate _ (by simp; omega)]
      rw [e]
      decide

theorem fillStart_getsStuck (n : Nat) (hn : n = 53242) : GetsStuck (fillStart n) := by
  have free : Free (fillStart n) := ⟨rfl, rfl, rfl⟩
  have next : exec (.ld 1 4#9) (fillStart n).advancePc =
      .next ((fillStart n).advancePc.afterResult 1 (BitVec.ofNat 16 0x2FFF)) := by
    rcases (fillStart n).advancePc.loadInto_cases 1 0x3005#16 with ⟨-, e⟩ | ⟨hm, -⟩
    · rw [State.writeResult_retireSeq,
        show (fillStart n).advancePc.mem.read (uval 0x3005#16) = 0x2FFF#16 from fillStart_head n 5 (by decide)] at e
      exact e
    · exact absurd (show 65536 ≤ uval 0x3005#16 from hm) (by decide)
  refine free.getsStuck_of_next ((congrArg decode (fillStart_head n 0 (by decide))).trans (by decide)) next
    (Filling.getsStuck (k := 0x2FFF) (by decide) ?_)
  exact {
    running := rfl
    noCap := rfl
    size := rfl
    atPc := rfl
    r0 := rfl
    r1 := rfl
    flags := rfl
    store := fillStart_head n 1 (by decide)
    count := fillStart_head n 2 (by decide)
    back := fillStart_head n 3 (by decide)
    puts := fillStart_head n 4 (by decide)
    nonzero := fun a ha hj => fillStart_nonzero n a hn ha hj }

/-- RunEndsIdleWithSnapshot, the stuck case: a run fills the memory that `start` left zero and then calls PUTS. -/
theorem witness_RunEndsIdleWithSnapshot_stuck :
    ∃ rounds, State.powerOn.run rounds (fillProgram 53242) { lowmem := [1#16], inPrompt := [] } [] =
      .stuck .unterminatedString :=
  fillStart_getsStuck 53242 rfl

end Sys2Proof.Tests
end

/-! # The state (10_state.md): the invariant of a step -/

section
namespace Sys2Proof.Machine

/-! ## What of the invariant does not speak of the run state -/

/-- The part of the invariant that speaks neither of the run state nor of PC: it holds in the middle of a step too. -/
structure State.Sound (s : State) : Prop where
  memWf : s.mem.wf
  memInside : ∀ c ∈ s.mem, c.1 < s.memWords
  memWordsLegal : 1 ≤ s.memWords ∧ s.memWords ≤ 65536
  condLegal : s.cond = 0x0000#16 ∨ s.cond = 0x0001#16 ∨ s.cond = 0x0002#16 ∨ s.cond = 0x0004#16
  withinCap : ∀ limit, s.stepLimit = some limit → s.steps ≤ limit
  sinkSawLog : if s.sinkAttached then s.outlog = s.chunks.flatten else s.chunks = []

/-- What holds while an instruction executes: the step has begun below the cap, and nothing has halted (R93, R94). -/
structure State.Executing (s : State) : Prop extends s.Sound where
  running : s.runState = .running none
  noError : s.error = none
  below : s.BelowCap

theorem State.Inv.sound {s : State} (h : s.Inv) : s.Sound where
  memWf := h.memWf
  memInside := h.memInside
  memWordsLegal := h.memWordsLegal
  condLegal := h.condLegal
  withinCap := fun limit hl => (h.belowCap limit hl).1
  sinkSawLog := h.sinkSawLog

/-- A Running core has no error, since an error is the condition that halted it (R23). -/
theorem State.Inv.error_of_running {s : State} (h : s.Inv) {p : Option Service} (hr : s.runState = .running p) :
    s.error = none := by
  rcases h.errorIsCause with idle | cause
  · simp [hr] at idle
  · exact Option.eq_none_iff_forall_ne_some.mpr fun c hc => by simpa [hr] using (cause c).mp hc

theorem State.Inv.executing {s : State} (h : s.Inv) (hr : s.runState = .running none) (below : s.BelowCap) :
    s.Executing where
  toSound := h.sound
  running := hr
  noError := h.error_of_running hr
  below := below

/-! ## The operations in the middle of an instruction -/

theorem State.Executing.advancePc {s : State} (h : s.Executing) : s.advancePc.Executing :=
  { h with }

theorem State.Executing.setReg {s : State} (h : s.Executing) (r : Reg) (v : Word) : (s.setReg r v).Executing :=
  { h with }

theorem State.Executing.writeResult {s : State} (h : s.Executing) (dr : Reg) (v : Word) :
    (s.writeResult dr v).Executing :=
  { h with condLegal := .inr (ccOf_cases v) }

theorem State.Executing.takeInput {s : State} (h : s.Executing) (rest : List Byte) :
    State.Executing { s with inq := rest } :=
  { h with }

/-- A store inside memory leaves every cell inside memory (R34). -/
theorem State.Executing.store {s : State} (h : s.Executing) {ea : Word} (mapped : uval ea < s.memWords) (v : Word) :
    State.Executing { s with mem := s.mem.write (uval ea) v } :=
  { h with
    memWf := Memory.wf_write h.memWf (uval ea) v
    memInside := fun c hc => by
      rcases Memory.mem_write hc with rfl | old
      · exact mapped
      · exact h.memInside c old }

/-- A chunk goes to the log and, if there is a sink, to the sink (R152). -/
theorem State.Executing.emit {s : State} (h : s.Executing) (bytes : List Byte) : (s.emit bytes).Executing :=
  { h with
    sinkSawLog := by
      have saw := h.sinkSawLog
      cases sink : s.sinkAttached with
      | false => simpa [sink] using saw
      | true =>
        rw [sink, if_pos rfl] at saw
        simp [sink, saw] }

/-! ## The ends of a step -/

/-- A halted core meets the invariant when its error is its halt cause: no read is pending and no fetch comes. -/
theorem State.Sound.inv_of_halted {s : State} (h : s.Sound) {cause : Cause} (halted : s.runState = .halted cause)
    (error : ∀ c, s.error = some c ↔ cause = .condition c) : s.Inv :=
  { h with
    errorIsCause := .inr fun c => by rw [error, halted, RunState.halted.injEq]
    pendingQueueEmpty := fun svc hr => by simp [halted] at hr
    belowCap := fun limit hl => ⟨h.withinCap limit hl, fun svc hr => by simp [halted] at hr⟩
    nextFetch := fun hr => by simp [halted] at hr }

/-- A Running core with no pending read meets the invariant when it has no error and the next fetch is allowed. -/
theorem State.Sound.inv_of_running {s : State} (h : s.Sound) (running : s.runState = .running none)
    (noError : s.error = none) (fetch : uval s.pc < s.memWords ∨ (s.steps = 0 ∧ s.pc = 0x3000#16)) : s.Inv :=
  { h with
    errorIsCause := .inr fun c => by simp [running, noError]
    pendingQueueEmpty := fun svc hr => by simp [running] at hr
    belowCap := fun limit hl => ⟨h.withinCap limit hl, fun svc hr => by simp [running] at hr⟩
    nextFetch := fun _ => fetch }

/-- A condition halts the core with itself as the error (R188). -/
theorem State.Sound.raise_inv {s : State} (h : s.Sound) (c : Condition) : (s.raise c).Inv :=
  State.Sound.inv_of_halted (s := s.raise c) { h with } rfl fun d => by simp

theorem State.Executing.halt_inv {s : State} (h : s.Executing) : (s.halt .halt).Inv :=
  State.Sound.inv_of_halted (s := s.halt .halt) { h with } rfl fun c => by simp [h.noError]

/-- A read suspends only on an empty queue, and its step began below the cap (R151). -/
theorem State.Executing.suspend_inv {s : State} (h : s.Executing) (queue : s.inq = []) (svc : Service) :
    State.Inv { s with runState := .running (some svc) } :=
  { h with
    errorIsCause := .inr fun c => by simp [h.noError]
    pendingQueueEmpty := fun _ _ => queue
    belowCap := fun limit hl => ⟨h.withinCap limit hl, fun _ _ => h.below limit hl⟩
    nextFetch := fun hr => by simp at hr }

/-- A retire whose next address is no lower than PC ends the run unless PC finds a cell (R97, conflict C1). -/
theorem State.Executing.retire_inv {s : State} (h : s.Executing) {npc : Nat} (covers : uval s.pc ≤ npc) :
    (s.retire npc).Inv := by
  have counted : State.Sound (s.retire npc) := by
    rw [State.retire_eq]
    exact { h with withinCap := h.below }
  rcases lt_or_ge npc s.memWords with inside | past
  · exact counted.inv_of_running (by simp [inside, h.running]) (by simp [h.noError])
      (.inl (by simpa using covers.trans_lt inside))
  · exact counted.inv_of_halted (cause := .endOfMemory) (by simp [past]) fun c => by simp [h.noError]

theorem uval_le_seqOf (pc : Word) : uval pc ≤ seqOf pc := by
  unfold seqOf
  split
  · exact pc.isLt.le
  · exact le_rfl

theorem State.Executing.retireSeq_inv {s : State} (h : s.Executing) : s.retireSeq.Inv :=
  h.retire_inv (uval_le_seqOf s.pc)

theorem State.Executing.redirect_inv {s : State} (h : s.Executing) (target : Word) : (s.redirect target).Inv :=
  State.Executing.retire_inv (s := { s with pc := target }) { h with } le_rfl

theorem State.Executing.deliver_inv {s : State} (h : s.Executing) (c : Byte) : (s.deliver c).Inv :=
  (h.writeResult 0 _).retireSeq_inv

/-! ## The step -/

/-- Every effect of an instruction ends its step in a state that meets the invariant. -/
theorem Effect.inv {i : Instr} {s t : State} (e : Effect i s t) (h : s.Executing) : t.Inv := by
  cases e with
  | result =>
    rw [← State.writeResult_retireSeq]
    exact (h.writeResult _ _).retireSeq_inv
  | branch | jump => exact h.redirect_inv _
  | noBranch => exact h.retireSeq_inv
  | call | callReg => exact (h.setReg _ _).redirect_inv _
  | store _ _ _ _ mapped => exact (h.store mapped _).retireSeq_inv
  | raise => exact h.toSound.raise_inv _
  | output => exact (h.emit _).retireSeq_inv
  | getcRead => exact (h.takeInput _).deliver_inv _
  | getcSuspend queue => exact h.suspend_inv queue _
  | inRead => exact ((h.emit _).takeInput _).deliver_inv _
  | inSuspend queue => exact (h.emit _).suspend_inv queue _
  | halt => exact h.halt_inv

/-- Settles O50: the cap and a fetch with no cell raise a condition in a sound state, and an executed instruction ends
in one of its effects. -/
theorem stepKeepsInvariant : Obligations.StepKeepsInvariant := by
  intro s t h stepped
  obtain ⟨running, ⟨-, rfl⟩ | ⟨below, -, rfl⟩ | ⟨below, -, executed⟩⟩ := step_next stepped
  · exact h.sound.raise_inv _
  · exact (h.executing running below).advancePc.toSound.raise_inv _
  · exact (exec_effect executed).inv (h.executing running below).advancePc

/-! ## The invariant at reset -/

/-- An Idle core keeps the invariant, which asks no more of it than of the core it was. -/
theorem State.Inv.toIdle {s : State} (h : s.Inv) : s.toIdle.Inv :=
  { h with
    errorIsCause := .inl rfl
    pendingQueueEmpty := fun svc hr => by simp [State.toIdle] at hr
    belowCap := fun limit hl => ⟨(h.belowCap limit hl).1, fun svc hr => by simp [State.toIdle] at hr⟩
    nextFetch := fun hr => by simp [State.toIdle] at hr }

theorem reset_sound : State.reset.Sound where
  memWf := reset_mem_wf
  memInside := by simp [State.reset]
  memWordsLegal := by decide
  condLegal := .inl rfl
  withinCap := fun limit hl => by simp [State.reset] at hl
  sinkSawLog := rfl

theorem reset_inv : State.reset.Inv :=
  reset_sound.inv_of_running rfl rfl (.inr ⟨rfl, rfl⟩)

/-- Settles O52: the core before the first start is the reset core, Idle. -/
theorem resetMeetsInvariant : Obligations.ResetMeetsInvariant :=
  ⟨reset_inv, reset_inv.toIdle⟩

/-- Settles O54: the fields of `State.reset`, and a start with no words loads nothing. -/
theorem resetLeavesSpecValues : Obligations.ResetLeavesSpecValues := by
  have started : State.powerOn.start [] {} = .next (resetState [] {}) := by
    simp [State.start, State.powerOn]
  refine ⟨fun r => ?_, rfl, rfl, fun _ => rfl, rfl, rfl, rfl, rfl, rfl, rfl, started⟩
  simp [State.reg_def, State.reset]

end Sys2Proof.Machine
end

/-! # The state (10_state.md): registers, COND, PC and what no instruction reads -/

section
namespace Sys2Proof.Machine

/-! ## The fields of the states after a result and after a read character -/

@[simp] theorem State.steps_afterResult (s : State) (dr : Reg) (v : Word) :
    (s.afterResult dr v).steps = s.steps + 1 := rfl

@[simp] theorem State.cond_afterResult (s : State) (dr : Reg) (v : Word) :
    (s.afterResult dr v).cond = signCond v := rfl

@[simp] theorem State.pc_afterResult (s : State) (dr : Reg) (v : Word) : (s.afterResult dr v).pc = s.pc := rfl

@[simp] theorem State.reg_afterResult_same (s : State) (dr : Reg) (v : Word) : (s.afterResult dr v).reg dr = v :=
  (State.reg_congr (by rfl) dr).trans (s.reg_setReg_same dr v)

theorem State.reg_afterResult_other (s : State) {dr r : Reg} (v : Word) (h : r ≠ dr) :
    (s.afterResult dr v).reg r = s.reg r :=
  (State.reg_congr (by rfl) r).trans (s.reg_setReg_other v h)

/-- A read character is a result in R0 (R141, R144). -/
theorem State.deliver_eq_afterResult (s : State) (c : Byte) : s.deliver c = s.afterResult 0 (c.setWidth 16) :=
  s.writeResult_retireSeq 0 (c.setWidth 16)

/-! ## The table of R12 -/

theorem Effect.reg {i : Instr} {s t : State} (e : Effect i s t) {r : Reg} (h : i.regWritten ≠ some r) :
    t.reg r = s.reg r := by
  cases e with
  | result written =>
    exact s.reg_afterResult_other _ fun eq => h (eq ▸ written)
  | call | callReg =>
    exact (State.reg_congr (State.regs_redirect _ _) r).trans (s.reg_setReg_other _ fun eq => h (eq ▸ rfl))
  | getcRead | inRead =>
    rw [State.deliver_eq_afterResult]
    exact State.reg_afterResult_other _ _ fun eq => h (eq ▸ rfl)
  | branch | jump => exact State.reg_congr (State.regs_redirect _ _) r
  | noBranch | store | output => exact State.reg_congr (State.regs_retireSeq _) r
  | raise | getcSuspend | inSuspend | halt => rfl

/-- Settles O40, by the effects of an instruction. -/
theorem onlyTableRegisterWritten : Obligations.OnlyTableRegisterWritten :=
  fun _ _ _ _ next notWritten => (exec_effect next).reg notWritten

/-! ## The flag setters of R18 -/

theorem Effect.cond_of_flagSource {i : Instr} {s t : State} (e : Effect i s t) {dr : Reg}
    (h : i.flagSource = some dr) :
    (t.steps = s.steps + 1 ∧ t.cond = signCond (t.reg dr)) ∨ (t.steps = s.steps ∧ t.cond = s.cond) := by
  cases e with
  | result _ flags =>
    cases flags.symm.trans h
    simp
  | getcRead | inRead =>
    cases h
    simp [State.deliver_eq_afterResult]
  | raise | getcSuspend | inSuspend => exact .inr ⟨rfl, rfl⟩
  | store _ noFlags => cases noFlags.symm.trans h
  | output service => rcases service with rfl | rfl | rfl <;> cases h
  | branch | noBranch | jump | call | callReg | halt => cases h

theorem Effect.cond_of_noFlagSource {i : Instr} {s t : State} (e : Effect i s t) (h : i.flagSource = none) :
    t.cond = s.cond := by
  cases e with
  | result _ flags => cases flags.symm.trans h
  | getcRead | inRead | getcSuspend | inSuspend => cases h
  | branch | jump | call | callReg => exact State.cond_redirect _ _
  | noBranch | store | output => exact State.cond_retireSeq _
  | raise | halt => rfl

/-- Settles O41, by the effects of an instruction. -/
theorem onlyFlagSettersChangeCond : Obligations.OnlyFlagSettersChangeCond :=
  fun _ _ _ next =>
    ⟨fun _ => (exec_effect next).cond_of_flagSource, (exec_effect next).cond_of_noFlagSource⟩

/-! ## The table of R14 -/

/-- JSRR reads its base after the link is written (R113). -/
theorem State.reg_linked (s : State) (base : Reg) :
    (s.setReg Reg.link s.pc).reg base = if base = 7 then s.pc else s.reg base := by
  split
  · next h => rw [h]; exact s.reg_setReg_same _ _
  · next h => exact s.reg_setReg_other _ h

theorem Effect.pc {i : Instr} {s t : State} (e : Effect i s t) : t.pc = pcAfter s i := by
  cases e with
  | result _ _ _ pc => exact pc.symm
  | branch taken =>
    rw [branchTaken_eq] at taken
    rw [State.pc_redirect, pcAfter, if_pos taken]; rfl
  | noBranch notTaken =>
    rw [branchTaken_eq] at notTaken
    rw [State.pc_retireSeq, pcAfter, notTaken]; rfl
  | jump | call => exact State.pc_redirect _ _
  | callReg => rw [State.pc_redirect, State.reg_linked]; rfl
  | store _ _ _ pc => exact (State.pc_retireSeq _).trans pc.symm
  | raise pc => exact pc.symm
  | output service => rcases service with rfl | rfl | rfl <;> exact State.pc_retireSeq _
  | getcRead | inRead => rw [State.deliver_eq_afterResult]; rfl
  | getcSuspend | inSuspend | halt => rfl

/-- Settles O43, by the effects of an instruction. -/
theorem pcFollowsTable : Obligations.PcFollowsTable :=
  fun _ _ _ next => (exec_effect next).pc

/-! ## Two runs that differ in COND and in the step counter -/

/-- `u` is `s` but for COND and the step counter: both have counted the same number of steps, `s` from `a` and `u` from
`b`. Where `Flags` holds, COND is the same too. -/
def Twins (Flags : Prop) (a b : Nat) (s u : State) : Prop :=
  ∃ (cond : Word) (n : Nat), (Flags → cond = s.cond) ∧ s.steps = a + n ∧ u = { s with cond := cond, steps := b + n }

section
variable {Flags : Prop} {a b : Nat} {s u t : State}

theorem Twins.of_cond (h : ¬Flags) (cond : Word) : Twins Flags s.steps s.steps s { s with cond := cond } :=
  ⟨cond, 0, fun f => absurd f h, rfl, rfl⟩

theorem Twins.of_steps (k : Nat) : Twins Flags s.steps k s { s with steps := k } :=
  ⟨s.cond, 0, fun _ => rfl, rfl, rfl⟩

/-- A reading of the state that looks at neither COND nor the step counter is the same of twins. -/
theorem Twins.reads_same {α : Type} (h : Twins Flags a b s u) (read : State → α)
    (blind : ∀ (s : State) cond k, read { s with cond := cond, steps := k } = read s) : read u = read s := by
  obtain ⟨cond, n, -, -, rfl⟩ := h
  exact blind s cond (b + n)

/-- An operation that neither reads nor writes COND and the step counter keeps twins. -/
theorem Twins.through (h : Twins Flags a b s u) (op : State → State)
    (blind : ∀ (s : State) cond k, op { s with cond := cond, steps := k } = { op s with cond := cond, steps := k }) :
    Twins Flags a b (op s) (op u) := by
  obtain ⟨cond, n, hc, hn, rfl⟩ := h
  have kept := blind s s.cond s.steps
  exact ⟨cond, n, fun f => (hc f).trans (congrArg State.cond kept).symm, (congrArg State.steps kept).trans hn,
    blind s cond (b + n)⟩

theorem Twins.reg (h : Twins Flags a b s u) (r : Reg) : u.reg r = s.reg r :=
  h.reads_same (·.reg r) fun _ _ _ => rfl

theorem Twins.memRead (h : Twins Flags a b s u) (addr : Word) : u.memRead addr = s.memRead addr :=
  h.reads_same (·.memRead addr) fun _ _ _ => rfl

theorem Twins.memWords (h : Twins Flags a b s u) : u.memWords = s.memWords :=
  h.reads_same State.memWords fun _ _ _ => rfl

theorem Twins.inq (h : Twins Flags a b s u) : u.inq = s.inq :=
  h.reads_same State.inq fun _ _ _ => rfl

theorem Twins.setReg (h : Twins Flags a b s u) (r : Reg) (v : Word) :
    Twins Flags a b (s.setReg r v) (u.setReg r v) :=
  h.through (·.setReg r v) fun _ _ _ => rfl

theorem Twins.raise (h : Twins Flags a b s u) (c : Condition) : Twins Flags a b (s.raise c) (u.raise c) :=
  h.through (·.raise c) fun _ _ _ => rfl

theorem Twins.halt (h : Twins Flags a b s u) (cause : Cause) : Twins Flags a b (s.halt cause) (u.halt cause) :=
  h.through (·.halt cause) fun _ _ _ => rfl

theorem Twins.emit (h : Twins Flags a b s u) (bytes : List Byte) : Twins Flags a b (s.emit bytes) (u.emit bytes) :=
  h.through (·.emit bytes) fun _ _ _ => rfl

theorem Twins.store (h : Twins Flags a b s u) (ea v : Word) :
    Twins Flags a b { s with mem := s.mem.write (uval ea) v } { u with mem := u.mem.write (uval ea) v } :=
  h.through (fun s => { s with mem := s.mem.write (uval ea) v }) fun _ _ _ => rfl

theorem Twins.takeInput (h : Twins Flags a b s u) (rest : List Byte) :
    Twins Flags a b { s with inq := rest } { u with inq := rest } :=
  h.through (fun s => { s with inq := rest }) fun _ _ _ => rfl

theorem Twins.suspend (h : Twins Flags a b s u) (svc : Service) :
    Twins Flags a b { s with runState := .running (some svc) } { u with runState := .running (some svc) } :=
  h.through (fun s => { s with runState := .running (some svc) }) fun _ _ _ => rfl

/-- A flag setter overwrites COND without reading it (R17). -/
theorem Twins.writeResult (h : Twins Flags a b s u) (dr : Reg) (v : Word) :
    Twins Flags a b (s.writeResult dr v) (u.writeResult dr v) := by
  obtain ⟨_, n, -, hn, rfl⟩ := h
  exact ⟨ccOf v, n, fun _ => rfl, hn, rfl⟩

theorem Twins.retireSeq (h : Twins Flags a b s u) : Twins Flags a b s.retireSeq u.retireSeq := by
  obtain ⟨cond, n, hc, hn, rfl⟩ := h
  simp only [State.retireSeq_eq]
  exact ⟨cond, n + 1, hc, congrArg (· + 1) hn, rfl⟩

theorem Twins.redirect (h : Twins Flags a b s u) (target : Word) :
    Twins Flags a b (s.redirect target) (u.redirect target) := by
  obtain ⟨cond, n, hc, hn, rfl⟩ := h
  simp only [State.redirect_eq]
  exact ⟨cond, n + 1, hc, congrArg (· + 1) hn, rfl⟩

theorem Twins.readChar (h : Twins Flags a b s u) (svc : Service) :
    Twins Flags a b (s.readChar svc) (u.readChar svc) := by
  cases queue : s.inq with
  | nil =>
    rw [State.readChar_nil queue, State.readChar_nil (h.inq.trans queue)]
    exact h.suspend svc
  | cons c rest =>
    rw [State.readChar_cons queue, State.readChar_cons (h.inq.trans queue)]
    exact ((h.takeInput rest).writeResult 0 _).retireSeq

/-- The outcome `v` has a next state that is a twin of `t`. -/
def GoesToTwin (Flags : Prop) (a b : Nat) (t : State) (v : Host.Outcome State Fault Refusal) : Prop :=
  ∃ w, v = .next w ∧ Twins Flags a b t w

/-- Twins that make the same access either raise the same condition or go on alike. -/
theorem Twins.orRaise {α : Type} {r : Except Condition α} {rest rest' : α → Host.Outcome State Fault Refusal}
    (h : Twins Flags a b s u) (goesOn : ∀ v, rest v = .next t → GoesToTwin Flags a b t (rest' v))
    (next : orRaise s r rest = .next t) : GoesToTwin Flags a b t (orRaise u r rest') := by
  rcases orRaise_next next with ⟨v, rfl, next⟩ | ⟨c, rfl, rfl⟩
  · exact goesOn v next
  · exact ⟨_, rfl, h.raise c⟩

theorem Twins.loadInto (h : Twins Flags a b s u) {dr : Reg} {ea : Word} (next : s.loadInto dr ea = .next t) :
    GoesToTwin Flags a b t (u.loadInto dr ea) := by
  rw [State.loadInto, h.memRead]
  refine h.orRaise (fun v next => ?_) next
  cases next
  exact ⟨_, rfl, (h.writeResult dr v).retireSeq⟩

theorem Twins.storeFrom (h : Twins Flags a b s u) {sr : Reg} {ea : Word} (next : s.storeFrom sr ea = .next t) :
    GoesToTwin Flags a b t (u.storeFrom sr ea) := by
  rcases s.storeFrom_cases sr ea with ⟨mapped, e⟩ | ⟨unmapped, e⟩ <;> cases e.symm.trans next
  · rw [State.storeFrom, State.memWrite_of_lt (h.memWords ▸ mapped), h.reg]
    exact ⟨_, rfl, (h.store ea _).retireSeq⟩
  · rw [State.storeFrom, State.memWrite_of_ge (h.memWords ▸ unmapped)]
    exact ⟨_, rfl, h.raise _⟩

theorem Twins.stringWalk (h : Twins Flags a b s u) {bytesOf : Word → List Byte} {fuel : Nat} {addr : Word}
    {out : List Byte} (next : s.stringWalk bytesOf fuel addr out = .next t) :
    GoesToTwin Flags a b t (u.stringWalk bytesOf fuel addr out) := by
  induction fuel generalizing addr out with
  | zero => cases next
  | succ fuel ih =>
    rw [State.stringWalk, h.memRead]
    refine h.orRaise (fun v next => ?_) next
    by_cases ends : v = 0x0000#16
    · rw [if_pos ends] at next ⊢
      cases next
      exact ⟨_, rfl, (h.emit out).retireSeq⟩
    · rw [if_neg ends] at next ⊢
      exact ih next

/-- Twins execute alike: only BR reads COND (R18), and nothing reads the step counter (R194). -/
theorem Twins.exec (h : Twins Flags a b s u) {i : Instr} (flags : (∀ n z p off, i ≠ .br n z p off) ∨ Flags)
    (next : exec i s = .next t) : GoesToTwin Flags a b t (exec i u) := by
  have twins := h
  obtain ⟨cond, n, hc, hn, rfl⟩ := h
  cases i with
  | br n z p off =>
    have same : cond = s.cond := hc (flags.resolve_left fun noBr => noBr n z p off rfl)
    subst same
    simp only [Machine.exec, execBr] at next ⊢
    split at next
    · next taken => cases next; exact ⟨_, if_pos taken, twins.redirect _⟩
    · next notTaken => cases next; exact ⟨_, if_neg notTaken, twins.retireSeq⟩
  | addReg | addImm | andReg | andImm | notReg | lea =>
    cases next
    exact ⟨_, rfl, (twins.writeResult _ _).retireSeq⟩
  | ld | ldr => exact twins.loadInto next
  | ldi => exact twins.orRaise (fun _ next => twins.loadInto next) next
  | st | str => exact twins.storeFrom next
  | sti => exact twins.orRaise (fun _ next => twins.storeFrom next) next
  | jmp => cases next; exact ⟨_, rfl, twins.redirect _⟩
  | jsr | jsrr => cases next; exact ⟨_, rfl, (twins.setReg _ _).redirect _⟩
  | reserved8 | reservedD | trap => cases next; exact ⟨_, rfl, twins.raise _⟩
  | trapGetc => cases next; exact ⟨_, rfl, twins.readChar _⟩
  | trapIn => cases next; exact ⟨_, rfl, (twins.emit _).readChar _⟩
  | trapOut => cases next; exact ⟨_, rfl, (twins.emit _).retireSeq⟩
  | trapPuts | trapPutsp => exact twins.stringWalk next
  | trapHalt => cases next; exact ⟨_, rfl, twins.halt _⟩

end

/-- Settles O48: a run with another COND, or another step count, is a twin of the first. -/
theorem onlyBranchReadsCondAndNoneReadsSteps : Obligations.OnlyBranchReadsCondAndNoneReadsSteps := by
  intro i s t next
  constructor
  · intro cond noBr
    obtain ⟨u, run, c, n, -, count, rfl⟩ := (Twins.of_cond not_false cond).exec (.inl noBr) next
    exact ⟨_, run, by rw [← count]⟩
  · intro k
    obtain ⟨u, run, c, n, same, count, rfl⟩ := (Twins.of_steps (Flags := True) k).exec (.inr trivial) next
    rw [run, same trivial, count, Nat.add_sub_cancel_left]

end Sys2Proof.Machine
end

/-! # Memory (20_memory.md): a store and the fetches after it -/

section
namespace Sys2Proof.Machine

/-- In a state with another memory list, a fetch reads its cell of that list under the same size (R35). -/
theorem State.fetch_withMem (s : State) (m : Memory) (a : Word) :
    State.fetch { s with mem := m } a = if uval a < s.memWords then some (m.read (uval a)) else none := rfl

/-- A write succeeds exactly at an address with a cell, and then changes the memory only (R34). -/
theorem State.memWrite_eq_ok {s t : State} {a v : Word} :
    s.memWrite a v = .ok t ↔ uval a < s.memWords ∧ t = { s with mem := s.mem.write (uval a) v } := by
  rcases lt_or_ge (uval a) s.memWords with h | h
  · simp [State.memWrite_of_lt h, h, eq_comm]
  · simp [State.memWrite_of_ge h, h]

/-- Settles O14: fetches and stores share one memory (R31), where a read gives the most recent write (R41). -/
theorem fetchSeesStore : Obligations.FetchSeesStore := by
  intro s t a v written
  obtain ⟨mapped, rfl⟩ := State.memWrite_eq_ok.mp written
  constructor
  · rw [State.fetch_withMem, if_pos mapped, Memory.read_write_same]
  · intro b other
    have otherCell : uval b ≠ uval a := fun same => other (BitVec.eq_of_toNat_eq same)
    rw [State.fetch_withMem, Memory.read_write_other s.mem v otherCell, State.fetch]

end Sys2Proof.Machine
end

/-! # Operate instructions (40_operate.md): ADD, AND and NOT -/

section
namespace Sys2Proof

/-! ## The words of ADD, AND and NOT -/

/-- The mask of the ADD and AND rows fixes the opcode and the mode bit `w[5]`. -/
theorem operate_fields_of_mask {w v : Word} (h : w &&& 0xF020#16 = v) :
    fieldNat w 15 12 = fieldNat v 15 12 ∧ fieldNat w 5 5 = fieldNat v 5 5 :=
  ⟨fieldNat_of_mask h 15 12 (by decide), fieldNat_of_mask h 5 5 (by decide)⟩

theorem decode_of_opcode_add {w : Word} (opcode : fieldNat w 15 12 = 0x1) :
    decode w =
      if fieldNat w 5 5 = 1 then .addImm (fieldReg w 11 9) (fieldReg w 8 6) (fieldImm w 5)
      else .addReg (fieldReg w 11 9) (fieldReg w 8 6) (fieldReg w 2 0) := by
  rw [decode_eq_fields, opcode]
  rfl

theorem decode_of_opcode_and {w : Word} (opcode : fieldNat w 15 12 = 0x5) :
    decode w =
      if fieldNat w 5 5 = 1 then .andImm (fieldReg w 11 9) (fieldReg w 8 6) (fieldImm w 5)
      else .andReg (fieldReg w 11 9) (fieldReg w 8 6) (fieldReg w 2 0) := by
  rw [decode_eq_fields, opcode]
  rfl

theorem decode_of_opcode_not {w : Word} (opcode : fieldNat w 15 12 = 0x9) :
    decode w = .notReg (fieldReg w 11 9) (fieldReg w 8 6) := by
  rw [decode_eq_fields, opcode]
  rfl

end Sys2Proof

namespace Sys2Proof.Machine

/-! ## Their effects -/

/-- The sum of two words is the sum of their unsigned readings modulo 2^16 (R5, R100). -/
theorem add_eq_ofNat_mod (x y : Word) : x + y = BitVec.ofNat 16 ((uval x + uval y) % 65536) :=
  BitVec.eq_of_toNat_eq (by simp [BitVec.toNat_add])

/-- Sign extension keeps the signed reading (R6). -/
theorem sext_eq_ofInt {n : Nat} (f : BitVec n) : sext f = BitVec.ofInt 16 f.toInt := rfl

theorem exec_addReg (dr sr1 sr2 : Reg) (s : State) :
    exec (.addReg dr sr1 sr2) s = .next (s.afterResult dr (s.reg sr1 + s.reg sr2)) := by
  rw [exec, execAddReg, State.writeResult_retireSeq]

theorem exec_addImm (dr sr1 : Reg) (imm : BitVec 5) (s : State) :
    exec (.addImm dr sr1 imm) s = .next (s.afterResult dr (s.reg sr1 + sext imm)) := by
  rw [exec, execAddImm, State.writeResult_retireSeq]

theorem exec_andReg (dr sr1 sr2 : Reg) (s : State) :
    exec (.andReg dr sr1 sr2) s = .next (s.afterResult dr (s.reg sr1 &&& s.reg sr2)) := by
  rw [exec, execAndReg, State.writeResult_retireSeq]

theorem exec_andImm (dr sr1 : Reg) (imm : BitVec 5) (s : State) :
    exec (.andImm dr sr1 imm) s = .next (s.afterResult dr (s.reg sr1 &&& sext imm)) := by
  rw [exec, execAndImm, State.writeResult_retireSeq]

theorem exec_notReg (dr sr : Reg) (s : State) :
    exec (.notReg dr sr) s = .next (s.afterResult dr (~~~(s.reg sr))) := by
  rw [exec, execNotReg, State.writeResult_retireSeq]

/-! ## The statements -/

/-- Settles O15: the mode bit of a matching word is 0, and the result is the sum of the two words. -/
theorem addRegisterForm : Obligations.AddRegisterForm := by
  constructor
  · intro w fixed
    obtain ⟨opcode, mode⟩ := operate_fields_of_mask fixed
    rw [decode_of_opcode_add opcode, mode]
    rfl
  · intro dr sr1 sr2 s
    rw [exec_addReg, add_eq_ofNat_mod]

/-- Settles O16: the mode bit of a matching word is 1, and the immediate is sign-extended. -/
theorem addImmediateForm : Obligations.AddImmediateForm := by
  constructor
  · intro w fixed
    obtain ⟨opcode, mode⟩ := operate_fields_of_mask fixed
    rw [decode_of_opcode_add opcode, mode]
    rfl
  · intro dr sr1 imm s
    rw [exec_addImm, sext_eq_ofInt]

/-- Settles O17: the mode bit of a matching word is 0, and the result is the AND of the two words. -/
theorem andRegisterForm : Obligations.AndRegisterForm := by
  constructor
  · intro w fixed
    obtain ⟨opcode, mode⟩ := operate_fields_of_mask fixed
    rw [decode_of_opcode_and opcode, mode]
    rfl
  · exact exec_andReg

/-- Settles O18: the mode bit of a matching word is 1, and the immediate is sign-extended. -/
theorem andImmediateForm : Obligations.AndImmediateForm := by
  constructor
  · intro w fixed
    obtain ⟨opcode, mode⟩ := operate_fields_of_mask fixed
    rw [decode_of_opcode_and opcode, mode]
    rfl
  · intro dr sr1 imm s
    rw [exec_andImm, sext_eq_ofInt]

/-- Settles O19: the opcode alone fixes the term, so the low six bits are free. -/
theorem notComplements : Obligations.NotComplements := by
  constructor
  · intro w fixed
    exact decode_of_opcode_not (fieldNat_of_mask fixed 15 12 (by decide))
  · exact exec_notReg

end Sys2Proof.Machine
end

/-! # Control transfer (41_control.md): BR, JMP, JSR and JSRR -/

section
namespace Sys2Proof

/-! ## The words of BR, JMP, JSR and JSRR -/

theorem decode_of_opcode_br {w : Word} (opcode : fieldNat w 15 12 = 0x0) :
    decode w = .br (fieldNat w 11 11 = 1) (fieldNat w 10 10 = 1) (fieldNat w 9 9 = 1) (fieldImm w 9) := by
  rw [decode_eq_fields, opcode]
  rfl

theorem decode_of_opcode_jmp {w : Word} (opcode : fieldNat w 15 12 = 0xC) : decode w = .jmp (fieldReg w 8 6) := by
  rw [decode_eq_fields, opcode]
  rfl

theorem decode_of_opcode_jumpSub {w : Word} (opcode : fieldNat w 15 12 = 0x4) :
    decode w = if fieldNat w 11 11 = 1 then .jsr (fieldImm w 11) else .jsrr (fieldReg w 8 6) := by
  rw [decode_eq_fields, opcode]
  rfl

/-- The mask of the JSR and JSRR rows fixes the opcode and the mode bit `w[11]`. -/
theorem jumpSub_fields_of_mask {w v : Word} (h : w &&& 0xF800#16 = v) :
    fieldNat w 15 12 = fieldNat v 15 12 ∧ fieldNat w 11 11 = fieldNat v 11 11 :=
  ⟨fieldNat_of_mask h 15 12 (by decide), fieldNat_of_mask h 11 11 (by decide)⟩

end Sys2Proof

namespace Sys2Proof.Machine

/-! ## Their effects -/

/-- A redirect is the control transfer of the claims (R96, R97). -/
theorem State.redirect_eq_afterJump (s : State) (target : Word) : s.redirect target = s.afterJump target :=
  s.redirect_eq target

/-- A link and then a redirect: the transfer of the claims in which the link register changes too (R112, R113). -/
theorem State.link_redirect (s : State) (target : Word) :
    (s.setReg Reg.link s.pc).redirect target = { s.afterJump target with regs := s.regs.set 7 s.pc } :=
  State.redirect_eq _ target

theorem exec_br (n z p : Bool) (off : BitVec 9) (s : State) :
    exec (.br n z p off) s =
      if branchTaken n z p s.cond then .next (s.afterJump (s.pc + sext off)) else .next s.afterSeq := by
  rw [exec, execBr, State.redirect_eq_afterJump, State.retireSeq_eq, State.pcRel9, State.afterSeq]

theorem exec_jmp (base : Reg) (s : State) : exec (.jmp base) s = .next (s.afterJump (s.reg base)) := by
  rw [exec, execJmp, State.redirect_eq_afterJump]

theorem exec_jsr (off : BitVec 11) (s : State) :
    exec (.jsr off) s = .next { s.afterJump (s.pc + sext off) with regs := s.regs.set 7 s.pc } := by
  rw [exec, execJsr, State.link_redirect, State.pcRel11]

theorem exec_jsrr (base : Reg) (s : State) :
    exec (.jsrr base) s =
      .next { s.afterJump (if base = 7 then s.pc else s.reg base) with regs := s.regs.set 7 s.pc } := by
  rw [exec, execJsrr, State.link_redirect, State.reg_linked]

/-! ## The statements -/

/-- Settles O20: the mask word meets COND exactly when one of its bits meets the flag at the same place. -/
theorem branchTakenWhenMaskMeetsFlag : Obligations.BranchTakenWhenMaskMeetsFlag := by
  constructor
  · intro w fixed
    exact decode_of_opcode_br (fieldNat_of_mask fixed 15 12 (by decide))
  · intro n z p off s
    rw [exec_br, branchTaken_eq, sext_eq_ofInt]

/-- Settles O21: the opcode alone fixes the term, and the target is the base register. -/
theorem jumpThroughRegister : Obligations.JumpThroughRegister := by
  constructor
  · intro w fixed
    exact decode_of_opcode_jmp (fieldNat_of_mask fixed 15 12 (by decide))
  · exact exec_jmp

/-- Settles O22: the mode bit of a matching word is 1, and link and target both start from the incremented PC. -/
theorem jumpSubroutineRelative : Obligations.JumpSubroutineRelative := by
  constructor
  · intro w fixed
    obtain ⟨opcode, mode⟩ := jumpSub_fields_of_mask fixed
    rw [decode_of_opcode_jumpSub opcode, mode]
    rfl
  · intro off s
    rw [exec_jsr, sext_eq_ofInt]

/-- Settles O23: the mode bit of a matching word is 0, and a base of R7 reads the link just written. -/
theorem jumpSubroutineRegister : Obligations.JumpSubroutineRegister := by
  constructor
  · intro w fixed
    obtain ⟨opcode, mode⟩ := jumpSub_fields_of_mask fixed
    rw [decode_of_opcode_jumpSub opcode, mode]
    rfl
  · exact exec_jsrr

end Sys2Proof.Machine
end

/-! # Loads and stores (42_load_store.md): LD, LDI, LDR, LEA, ST, STI and STR -/

section
namespace Sys2Proof

/-- The mask of the load and store rows fixes the opcode. -/
theorem opcode_of_mask {w v : Word} (h : w &&& 0xF000#16 = v) : fieldNat w 15 12 = fieldNat v 15 12 :=
  fieldNat_of_mask h 15 12 (by decide)

end Sys2Proof

namespace Sys2Proof.Machine

/-! ## The accesses of R33 and R34 on each side of the size of memory -/

theorem State.loadInto_of_lt {s : State} {dr : Reg} {ea : Word} (mapped : uval ea < s.memWords) :
    s.loadInto dr ea = .next (s.afterResult dr (s.mem.read (uval ea))) := by
  rw [State.loadInto, State.memRead_of_lt mapped, orRaise, State.writeResult_retireSeq]

theorem State.loadInto_of_ge {s : State} {dr : Reg} {ea : Word} (unmapped : s.memWords ≤ uval ea) :
    s.loadInto dr ea = .next (s.afterRaise (.unmappedAccess ea)) := by
  rw [State.loadInto, State.memRead_of_ge unmapped]
  rfl

theorem State.storeFrom_of_lt {s : State} {sr : Reg} {ea : Word} (mapped : uval ea < s.memWords) :
    ∃ t, s.storeFrom sr ea = .next t ∧ s.afterStore ea (s.reg sr) t := by
  refine ⟨_, ?_, s.write_retireSeq ea (s.reg sr)⟩
  rw [State.storeFrom, State.memWrite_of_lt mapped, orRaise]

theorem State.storeFrom_of_ge {s : State} {sr : Reg} {ea : Word} (unmapped : s.memWords ≤ uval ea) :
    s.storeFrom sr ea = .next (s.afterRaise (.unmappedAccess ea)) := by
  rw [State.storeFrom, State.memWrite_of_ge unmapped]
  rfl

section
variable {s : State} {pa : Word} {rest : Word → Host.Outcome State Fault Refusal}

/-- What follows the read of a pointer that has a cell runs on the word in that cell (R121, R125). -/
theorem orRaise_memRead_of_lt (mapped : uval pa < s.memWords) :
    orRaise s (s.memRead pa) rest = rest (s.mem.read (uval pa)) := by
  rw [State.memRead_of_lt mapped, orRaise]

/-- The read of a pointer that has no cell is the last act of the instruction (R121, R125). -/
theorem orRaise_memRead_of_ge (unmapped : s.memWords ≤ uval pa) :
    orRaise s (s.memRead pa) rest = .next (s.afterRaise (.unmappedAccess pa)) := by
  rw [State.memRead_of_ge unmapped]
  rfl

end

/-! ## The meanings, with their addresses in the spec's form (R119) -/

theorem State.pcRel9_eq (s : State) (off : BitVec 9) : s.pcRel9 off = s.pc + BitVec.ofInt 16 off.toInt := by
  rw [State.pcRel9, sext_eq_ofInt]

theorem State.baseOff_eq (s : State) (base : Reg) (off : BitVec 6) :
    s.baseOff base off = s.reg base + BitVec.ofInt 16 off.toInt := by
  rw [State.baseOff, sext_eq_ofInt]

theorem exec_ld (dr : Reg) (off : BitVec 9) (s : State) :
    exec (.ld dr off) s = s.loadInto dr (s.pc + BitVec.ofInt 16 off.toInt) := by
  rw [exec, execLd, State.pcRel9_eq]

theorem exec_ldi (dr : Reg) (off : BitVec 9) (s : State) :
    exec (.ldi dr off) s = orRaise s (s.memRead (s.pc + BitVec.ofInt 16 off.toInt)) fun ea => s.loadInto dr ea := by
  rw [exec, execLdi, State.pcRel9_eq]

theorem exec_ldr (dr base : Reg) (off : BitVec 6) (s : State) :
    exec (.ldr dr base off) s = s.loadInto dr (s.reg base + BitVec.ofInt 16 off.toInt) := by
  rw [exec, execLdr, State.baseOff_eq]

theorem exec_lea (dr : Reg) (off : BitVec 9) (s : State) :
    exec (.lea dr off) s = .next (s.afterResult dr (s.pc + BitVec.ofInt 16 off.toInt)) := by
  rw [exec, execLea, State.writeResult_retireSeq, State.pcRel9_eq]

theorem exec_st (sr : Reg) (off : BitVec 9) (s : State) :
    exec (.st sr off) s = s.storeFrom sr (s.pc + BitVec.ofInt 16 off.toInt) := by
  rw [exec, execSt, State.pcRel9_eq]

theorem exec_sti (sr : Reg) (off : BitVec 9) (s : State) :
    exec (.sti sr off) s = orRaise s (s.memRead (s.pc + BitVec.ofInt 16 off.toInt)) fun ea => s.storeFrom sr ea := by
  rw [exec, execSti, State.pcRel9_eq]

theorem exec_str (sr base : Reg) (off : BitVec 6) (s : State) :
    exec (.str sr base off) s = s.storeFrom sr (s.reg base + BitVec.ofInt 16 off.toInt) := by
  rw [exec, execStr, State.baseOff_eq]

/-! ## What an instruction does to memory -/

theorem Effect.memWords {i : Instr} {s t : State} (e : Effect i s t) : t.memWords = s.memWords := by
  cases e with
  | branch | jump | call | callReg => exact State.memWords_redirect _ _
  | noBranch | store | output => exact State.memWords_retireSeq _
  | getcRead | inRead => rw [State.deliver_eq_afterResult]; rfl
  | result | raise | getcSuspend | inSuspend | halt => rfl

/-- An instruction leaves memory as it was, or writes the one cell at its store address (R124 to R126, R140). -/
theorem Effect.mem {i : Instr} {s t : State} (e : Effect i s t) :
    t.mem = s.mem ∨ ∃ ea v, storeAddress s i = some ea ∧ t.mem = s.mem.write (uval ea) v := by
  cases e with
  | @store _ _ ea v _ _ address => exact .inr ⟨ea, v, address, State.mem_retireSeq _⟩
  | branch | jump | call | callReg => exact .inl (State.mem_redirect _ _)
  | noBranch | output => exact .inl (State.mem_retireSeq _)
  | getcRead | inRead => rw [State.deliver_eq_afterResult]; exact .inl rfl
  | result | raise | getcSuspend | inSuspend | halt => exact .inl rfl

/-- A cell that is not at the store address reads as before. -/
theorem Effect.read_mem {i : Instr} {s t : State} (e : Effect i s t) {a : Nat}
    (other : ∀ ea, storeAddress s i = some ea → a ≠ uval ea) : t.mem.read a = s.mem.read a := by
  rcases e.mem with unchanged | ⟨ea, v, address, written⟩
  · rw [unchanged]
  · rw [written, Memory.read_write_other _ _ (other ea address)]

/-! ## The statements -/

/-- Settles O24: one access, at the address relative to PC. -/
theorem loadPcRelative : Obligations.LoadPcRelative := by
  constructor
  · intro w fixed
    rw [decode_eq_fields, opcode_of_mask fixed]
    rfl
  · intro dr off s ea address
    rw [exec_ld, ← address]
    exact ⟨State.loadInto_of_lt, State.loadInto_of_ge⟩

/-- Settles O25: the pointer is read first, so the load and its own raise happen only when the pointer has a cell. -/
theorem loadIndirect : Obligations.LoadIndirect := by
  constructor
  · intro w fixed
    rw [decode_eq_fields, opcode_of_mask fixed]
    rfl
  · intro dr off s pa ea pointer address
    rw [exec_ldi, ← pointer]
    refine ⟨fun mapped loads => ?_, orRaise_memRead_of_ge, fun mapped fails => ?_⟩
    · rw [orRaise_memRead_of_lt mapped, ← address, State.loadInto_of_lt loads]
    · rw [orRaise_memRead_of_lt mapped, ← address, State.loadInto_of_ge fails]

/-- Settles O26: one access, whose address is formed before DR is written. -/
theorem loadBaseOffset : Obligations.LoadBaseOffset := by
  constructor
  · intro w fixed
    rw [decode_eq_fields, opcode_of_mask fixed]
    rfl
  · intro dr base off s ea address
    rw [exec_ldr, ← address]
    exact ⟨State.loadInto_of_lt, State.loadInto_of_ge⟩

/-- Settles O27: the result is the address itself, and no access is made. -/
theorem loadEffectiveAddress : Obligations.LoadEffectiveAddress := by
  constructor
  · intro w fixed
    rw [decode_eq_fields, opcode_of_mask fixed]
    rfl
  · exact exec_lea

/-- Settles O28: one access, at the address relative to PC. -/
theorem storePcRelative : Obligations.StorePcRelative := by
  constructor
  · intro w fixed
    rw [decode_eq_fields, opcode_of_mask fixed]
    rfl
  · intro sr off s ea address
    rw [exec_st, ← address]
    exact ⟨State.storeFrom_of_lt, State.storeFrom_of_ge⟩

/-- Settles O29: the pointer is read first, so the store and its own raise happen only when the pointer has a cell. -/
theorem storeIndirect : Obligations.StoreIndirect := by
  constructor
  · intro w fixed
    rw [decode_eq_fields, opcode_of_mask fixed]
    rfl
  · intro sr off s pa ea pointer address
    rw [exec_sti, ← pointer]
    refine ⟨fun mapped stores => ?_, orRaise_memRead_of_ge, fun mapped fails => ?_⟩
    · rw [orRaise_memRead_of_lt mapped, ← address]
      exact State.storeFrom_of_lt stores
    · rw [orRaise_memRead_of_lt mapped, ← address, State.storeFrom_of_ge fails]

/-- Settles O30: one access, at the base register and the offset. -/
theorem storeBaseOffset : Obligations.StoreBaseOffset := by
  constructor
  · intro w fixed
    rw [decode_eq_fields, opcode_of_mask fixed]
    rfl
  · intro sr base off s ea address
    rw [exec_str, ← address]
    exact ⟨State.storeFrom_of_lt, State.storeFrom_of_ge⟩

/-- Settles O42, by the effects of an instruction on memory. -/
theorem onlyStoresChangeMemory : Obligations.OnlyStoresChangeMemory := by
  intro i s t next
  have e : Effect i s t := exec_effect next
  refine ⟨e.memWords, fun ea address a other => e.read_mem fun ea' address' => ?_,
    fun noStore a => e.read_mem fun ea' address' => ?_⟩
  · cases address.symm.trans address'
    exact other
  · cases noStore.symm.trans address'

end Sys2Proof.Machine
end

/-! # Traps (43_trap.md): the six services, undefined vectors, and the I/O channel -/

section
namespace Sys2Proof

/-! ## The words of TRAP -/

theorem decode_of_opcode_trap {w : Word} (opcode : fieldNat w 15 12 = 0xF) : decode w = decodeTrap (fieldImm w 8) := by
  rw [decode_eq_fields, opcode]
  rfl

/-- The mask of a service's row fixes the opcode and the vector. -/
theorem decode_of_service_mask {w v : Word} (h : w &&& 0xF0FF#16 = v) (opcode : fieldNat v 15 12 = 0xF) :
    decode w = decodeTrap (fieldImm v 8) := by
  have sameOpcode : fieldNat w 15 12 = fieldNat v 15 12 := fieldNat_of_mask h 15 12 (by decide)
  have sameVector : fieldNat w 7 0 = fieldNat v 7 0 := fieldNat_of_mask h 7 0 (by decide)
  rw [decode_of_opcode_trap (sameOpcode.trans opcode), fieldImm, sameVector, fieldImm]

theorem fieldImm_toNat_of_byte (w : Word) : (fieldImm w 8).toNat = fieldNat w 7 0 := by
  simp [fieldImm, fieldNat]

/-- Only the vectors 0x20 to 0x25 name a service (R63). -/
theorem decodeTrap_of_undefined {v : BitVec 8} (undefined : v.toNat < 0x20 ∨ 0x25 < v.toNat) :
    decodeTrap v = .trap v := by
  unfold decodeTrap
  split
  case h_7 => rfl
  all_goals omega

end Sys2Proof

namespace Sys2Proof.Machine

/-! ## Reading a character -/

theorem byte_toInt_eq_zero (c : Byte) : (c.toNat : Int) = 0 ↔ c = 0#8 := by
  rw [Int.natCast_eq_zero, ← BitVec.toNat_inj]
  rfl

/-- A zero-extended byte is never negative, so its flag is Z or P (R141). -/
theorem signCond_zext (c : Byte) : signCond (c.setWidth 16) = if c = 0#8 then 0x0002#16 else 0x0001#16 := by
  have value : sval (c.setWidth 16) = c.toNat := by
    have small := c.isLt
    rw [sval, BitVec.toInt_eq_toNat_of_lt (by rw [BitVec.toNat_setWidth_of_le (by decide)]; omega),
      BitVec.toNat_setWidth_of_le (by decide)]
  rw [signCond, value]
  by_cases h : c = 0#8
  · rw [if_pos ((byte_toInt_eq_zero c).mpr h), if_pos h]
  · have nonzero : (c.toNat : Int) ≠ 0 := mt (byte_toInt_eq_zero c).mp h
    rw [if_neg nonzero, if_pos (by omega), if_neg h]

/-- A read character in the form of the claims (R141, R144, R149). -/
theorem State.deliver_eq_zext (s : State) (c : Byte) :
    s.deliver c =
      { s.afterSeq with
        regs := s.regs.set 0 (BitVec.ofNat 16 c.toNat)
        cond := if c = 0#8 then 0x0002#16 else 0x0001#16 } := by
  rw [State.deliver_eq, signCond_zext, BitVec.ofNat_toNat, State.afterSeq]

/-- No step begins while a read is pending (R93). -/
theorem step_of_pending {s : State} {svc : Service} (pending : s.runState = .running (some svc)) :
    step s = .refused .stepWhileReadPending := by
  rw [step, State.stepRefusal, pending]

/-- A pushed byte completes a pending read, as a queued one would have, and leaves the queue alone (R149). -/
theorem State.push_of_pending {s : State} {svc : Service} (pending : s.runState = .running (some svc)) (c : Byte) :
    s.push c.toNat = .next
      { s with
        regs := s.regs.set 0 (BitVec.ofNat 16 c.toNat)
        cond := if c = 0#8 then 0x0002#16 else 0x0001#16
        steps := s.steps + 1
        runState := if seqOf s.pc < s.memWords then .running none else .halted .endOfMemory } := by
  have inRange : 0 ≤ (c.toNat : Int) ∧ (c.toNat : Int) ≤ 255 := by
    have := c.isLt
    omega
  rw [State.push, pending]
  simp only [if_pos inRange, State.resume, BitVec.ofInt_natCast, BitVec.ofNat_toNat, BitVec.setWidth_eq,
    State.deliver_eq_zext]
  rfl

/-- The two ways of a read, in the form of the claims (R151): a queued byte ends it at once, and a suspended
one waits for the byte that is pushed. -/
theorem State.readChar_clauses (s : State) (svc : Service) :
    (∀ c rest, s.inq = c :: rest →
      s.readChar svc =
        { s.afterSeq with
          regs := s.regs.set 0 (BitVec.ofNat 16 c.toNat)
          cond := if c = 0#8 then 0x0002#16 else 0x0001#16
          inq := rest }) ∧
    (s.inq = [] →
      s.readChar svc = { s with runState := .running (some svc) } ∧
        (∃ r, step (s.readChar svc) = .refused r) ∧
        ∀ c : Byte, (s.readChar svc).push c.toNat = .next
          { s with
            regs := s.regs.set 0 (BitVec.ofNat 16 c.toNat)
            cond := if c = 0#8 then 0x0002#16 else 0x0001#16
            steps := s.steps + 1
            runState := if seqOf s.pc < s.memWords then .running none else .halted .endOfMemory }) := by
  constructor
  · intro c rest queue
    rw [State.readChar_cons queue, State.deliver_eq_zext]
    rfl
  · intro queue
    rw [State.readChar_nil queue]
    exact ⟨rfl, ⟨_, step_of_pending rfl⟩, State.push_of_pending rfl⟩

/-- With no read pending a byte joins the end of the queue (R148). -/
theorem State.push_of_notPending {s : State} (running : s.runState = .running none) {c : Int}
    (inRange : 0 ≤ c ∧ c ≤ 255) : s.push c = .next { s with inq := s.inq ++ [BitVec.ofInt 8 c] } := by
  rw [State.push, running]
  exact if_pos inRange

/-- A push outside Running, or of a code that is no byte, is refused (R148, R210). -/
theorem State.push_refused {s : State} {c : Int} (h : c < 0 ∨ 255 < c ∨ ∀ p, s.runState ≠ .running p) :
    ∃ r, s.push c = .refused r := by
  unfold State.push
  cases state : s.runState with
  | idle | halted => exact ⟨_, rfl⟩
  | running p =>
    have notByte : ¬(0 ≤ c ∧ c ≤ 255) := by
      rcases h with h | h | h
      · omega
      · omega
      · exact absurd state (h p)
    exact ⟨_, if_neg notByte⟩

/-! ## Writing characters -/

/-- A chunk and then a retire, in the form of the claims (R152, R97). -/
theorem State.emit_retireSeq (s : State) (out : List Byte) :
    (s.emit out).retireSeq =
      { s.afterSeq with
        outlog := s.outlog ++ out
        chunks := if s.sinkAttached then s.chunks ++ [out] else s.chunks } :=
  State.retireSeq_eq _

theorem putsBytes_eq (v : Word) : putsBytes v = [BitVec.ofNat 8 (uval v)] := by
  rw [putsBytes, lowByte_eq]

theorem highByte_eq_zero (v : Word) : highByte v = 0#8 ↔ uval v < 256 := by
  have := v.isLt
  rw [highByte_eq, ← BitVec.toNat_inj, BitVec.toNat_ofNat, BitVec.toNat_ofNat]
  simp only [uval]
  omega

theorem putspBytes_eq (v : Word) :
    putspBytes v =
      BitVec.ofNat 8 (uval v) :: if uval v < 256 then [] else [BitVec.ofNat 8 (uval v / 256)] := by
  by_cases h : uval v < 256
  · rw [putspBytes, if_pos ((highByte_eq_zero v).mpr h), lowByte_eq, if_pos h]
  · rw [putspBytes, if_neg (mt (highByte_eq_zero v).mp h), lowByte_eq, highByte_eq, if_neg h]

/-- The three ways of a string service, in the form of the claims, from the first `n` cells and their bytes. -/
theorem State.stringWalk_clauses {s : State} {bytesOf : Word → List Byte} {n : Nat} {out : List Byte} (hn : n < 65536)
    (before : ∀ i < n, s.stringGoesOn i)
    (gathered : out = (List.range n).flatMap fun i => bytesOf (s.stringCell i)) :
    ((uval (s.reg 0) + n) % 65536 < s.memWords → s.stringCell n = 0x0000#16 →
      s.stringWalk bytesOf walkFuel (s.reg 0) [] = .next
        { s.afterSeq with
          outlog := s.outlog ++ out
          chunks := if s.sinkAttached then s.chunks ++ [out] else s.chunks }) ∧
    (s.memWords ≤ (uval (s.reg 0) + n) % 65536 →
      s.stringWalk bytesOf walkFuel (s.reg 0) [] =
        .next (s.afterRaise (.unmappedAccess (s.reg 0 + BitVec.ofNat 16 n)))) ∧
    (s.stringGoesOn n → n = 65535 →
      s.stringWalk bytesOf walkFuel (s.reg 0) [] = .fault .unterminatedString) := by
  refine ⟨fun mapped zero => ?_, s.stringWalk_unmapped bytesOf n hn before, fun last full => ?_⟩
  · rw [s.stringWalk_ends bytesOf n hn before mapped zero, ← gathered, State.emit_retireSeq]
  · refine s.stringWalk_sticks bytesOf fun i hi => ?_
    rcases lt_or_eq_of_le (show i ≤ n by omega) with earlier | rfl
    · exact before i earlier
    · exact last

/-! ## Which instructions answer a next state -/

/-- A walk that comes to a cell where it stops, at its word 0 or for want of a cell, answers a next state: it stops at
the first such cell. -/
theorem State.stringWalk_next_of_stops (s : State) (bytesOf : Word → List Byte) (n : Nat) (hn : n < 65536)
    (stops : ¬s.stringGoesOn n) : ∃ t, s.stringWalk bytesOf walkFuel (s.reg 0) [] = .next t := by
  induction n using Nat.strong_induction_on with
  | h n ih =>
    by_cases before : ∀ i < n, s.stringGoesOn i
    · rcases lt_or_ge ((uval (s.reg 0) + n) % 65536) s.memWords with mapped | unmapped
      · have zero : s.stringCell n = 0x0000#16 := by_contra fun nonzero => stops ⟨mapped, nonzero⟩
        exact ⟨_, s.stringWalk_ends bytesOf n hn before mapped zero⟩
      · exact ⟨_, s.stringWalk_unmapped bytesOf n hn before unmapped⟩
    · push Not at before
      obtain ⟨i, hi, stopsBefore⟩ := before
      exact ih i hi (hi.trans hn) stopsBefore

/-- A string service never completes exactly over a full memory with no word 0 (R143, R145, D29). -/
theorem State.stringWalk_fault_iff (s : State) (bytesOf : Word → List Byte) :
    (∃ f, s.stringWalk bytesOf walkFuel (s.reg 0) [] = .fault f) ↔ ∀ k < 65536, s.stringGoesOn k := by
  constructor
  · rintro ⟨f, stuck⟩ k hk
    by_contra stops
    obtain ⟨t, next⟩ := s.stringWalk_next_of_stops bytesOf k hk stops
    cases stuck.symm.trans next
  · exact fun goesOn => ⟨_, s.stringWalk_sticks bytesOf goesOn⟩

theorem State.stringWalk_ne_refused (s : State) (bytesOf : Word → List Byte) (r : Refusal) :
    s.stringWalk bytesOf walkFuel (s.reg 0) [] ≠ .refused r := by
  rcases s.stringWalk_cases bytesOf with ⟨_, e⟩ | ⟨_, _, e⟩ | e <;> rw [e] <;> exact nofun

theorem orRaise_answers {α : Type} (s : State) (r : Except Condition α)
    {rest : α → Host.Outcome State Fault Refusal} (goesOn : ∀ v, ∃ t, rest v = .next t) :
    ∃ t, orRaise s r rest = .next t := by
  cases r with
  | ok v => exact goesOn v
  | error c => exact ⟨_, rfl⟩

theorem State.loadInto_answers (s : State) (dr : Reg) (ea : Word) : ∃ t, s.loadInto dr ea = .next t :=
  orRaise_answers s _ fun _ => ⟨_, rfl⟩

theorem State.storeFrom_answers (s : State) (sr : Reg) (ea : Word) : ∃ t, s.storeFrom sr ea = .next t :=
  orRaise_answers s _ fun _ => ⟨_, rfl⟩

/-- Every instruction but the two string services answers a next state. -/
theorem exec_answers {i : Instr} (s : State) (noString : ¬(i = .trapPuts ∨ i = .trapPutsp)) :
    ∃ t, exec i s = .next t := by
  cases i with
  | br n z p off =>
    rw [exec_br]
    split <;> exact ⟨_, rfl⟩
  | ld | ldr => exact s.loadInto_answers _ _
  | ldi => exact orRaise_answers s _ fun ea => s.loadInto_answers _ ea
  | st | str => exact s.storeFrom_answers _ _
  | sti => exact orRaise_answers s _ fun ea => s.storeFrom_answers _ ea
  | trapPuts => exact absurd (.inl rfl) noString
  | trapPutsp => exact absurd (.inr rfl) noString
  | addReg | addImm | andReg | andImm | notReg | lea | jmp | jsr | jsrr | reserved8 | reservedD | trapGetc | trapOut
  | trapIn | trapHalt | trap => exact ⟨_, rfl⟩

/-! ## The I/O frame of an instruction -/

/-- The log and the sink's record are left alone, or both grow by the one chunk of an output service (R152). -/
theorem Effect.output_frame {i : Instr} {s t : State} (e : Effect i s t) :
    (t.outlog = s.outlog ∧ t.chunks = s.chunks) ∨
      ((i = .trapOut ∨ i = .trapPuts ∨ i = .trapIn ∨ i = .trapPutsp) ∧
        ∃ chunk, t.outlog = s.outlog ++ chunk ∧
          t.chunks = if s.sinkAttached then s.chunks ++ [chunk] else s.chunks) := by
  cases e with
  | output service =>
    refine .inr ⟨?_, _, State.outlog_retireSeq _, State.chunks_retireSeq _⟩
    rcases service with rfl | rfl | rfl <;> simp
  | inRead =>
    rw [State.deliver_eq_afterResult]
    exact .inr ⟨.inr (.inr (.inl rfl)), s.inPrompt, rfl, rfl⟩
  | inSuspend => exact .inr ⟨.inr (.inr (.inl rfl)), s.inPrompt, rfl, rfl⟩
  | getcRead => rw [State.deliver_eq_afterResult]; exact .inl ⟨rfl, rfl⟩
  | branch | jump | call | callReg => exact .inl ⟨State.outlog_redirect _ _, State.chunks_redirect _ _⟩
  | noBranch | store => exact .inl ⟨State.outlog_retireSeq _, State.chunks_retireSeq _⟩
  | result | raise | getcSuspend | halt => exact .inl ⟨rfl, rfl⟩

/-- The queue is left alone, or GETC or IN takes its head (R151). -/
theorem Effect.input_frame {i : Instr} {s t : State} (e : Effect i s t) :
    t.inq = s.inq ∨ ((i = .trapGetc ∨ i = .trapIn) ∧ ∃ c, s.inq = c :: t.inq) := by
  cases e with
  | @getcRead _ c _ queue =>
    rw [State.deliver_eq_afterResult]
    exact .inr ⟨.inl rfl, c, queue⟩
  | @inRead _ c _ queue =>
    rw [State.deliver_eq_afterResult]
    exact .inr ⟨.inr rfl, c, queue⟩
  | branch | jump | call | callReg => exact .inl (State.inq_redirect _ _)
  | noBranch | store | output => exact .inl (State.inq_retireSeq _)
  | result | raise | getcSuspend | inSuspend | halt => exact .inl rfl

/-- The run options are `start`'s alone (R4, R201). -/
theorem Effect.options_frame {i : Instr} {s t : State} (e : Effect i s t) :
    t.stepLimit = s.stepLimit ∧ t.inPrompt = s.inPrompt ∧ t.sinkAttached = s.sinkAttached := by
  cases e with
  | branch | jump | call | callReg =>
    exact ⟨State.stepLimit_redirect _ _, State.inPrompt_redirect _ _, State.sinkAttached_redirect _ _⟩
  | noBranch | store | output =>
    exact ⟨State.stepLimit_retireSeq _, State.inPrompt_retireSeq _, State.sinkAttached_retireSeq _⟩
  | getcRead | inRead => rw [State.deliver_eq_afterResult]; exact ⟨rfl, rfl, rfl⟩
  | result | raise | getcSuspend | inSuspend | halt => exact ⟨rfl, rfl, rfl⟩

/-! ## The statements -/

/-- Settles O31, by the two ways of a read. -/
theorem getcReadsOrSuspends : Obligations.GetcReadsOrSuspends := by
  constructor
  · intro w fixed
    exact decode_of_service_mask fixed rfl
  · intro s
    obtain ⟨reads, suspends⟩ := s.readChar_clauses .getc
    refine ⟨fun c rest queue => ?_, fun empty => ⟨_, rfl, suspends empty⟩⟩
    exact congrArg Host.Outcome.next (reads c rest queue)

/-- Settles O32: one chunk of one byte, then the retire. -/
theorem outEmitsLowByte : Obligations.OutEmitsLowByte := by
  constructor
  · intro w fixed
    exact decode_of_service_mask fixed rfl
  · intro s
    rw [exec, execTrapOut, State.emit_retireSeq, lowByte_eq]

/-- Settles O33, by the three ways of a string service that takes the low byte of each cell. -/
theorem putsWritesString : Obligations.PutsWritesString := by
  constructor
  · intro w fixed
    exact decode_of_service_mask fixed rfl
  · intro s n out hn before gathered
    refine State.stringWalk_clauses hn before ?_
    simp only [gathered, putsBytes_eq, List.map_eq_flatMap]

/-- Settles O34: the prompt is emitted, and the state after it reads in the two ways of a read. -/
theorem inPromptsThenReads : Obligations.InPromptsThenReads := by
  constructor
  · intro w fixed
    exact decode_of_service_mask fixed rfl
  · rintro s _ _ rfl rfl
    obtain ⟨reads, suspends⟩ := (s.emit s.inPrompt).readChar_clauses .inChar
    refine ⟨fun c rest queue => ?_, fun empty => ⟨_, rfl, suspends empty⟩⟩
    exact congrArg Host.Outcome.next (reads c rest queue)

/-- Settles O35, by the three ways of a string service that takes both bytes of each cell. -/
theorem putspWritesPackedString : Obligations.PutspWritesPackedString := by
  constructor
  · intro w fixed
    exact decode_of_service_mask fixed rfl
  · intro s n out hn before gathered
    refine State.stringWalk_clauses hn before ?_
    simp only [gathered, putspBytes_eq]

/-- Settles O36: the halt is the whole meaning, with no retire after it. -/
theorem haltEndsRunWithSuccess : Obligations.HaltEndsRunWithSuccess := by
  constructor
  · intro w fixed
    exact decode_of_service_mask fixed rfl
  · exact fun s => ⟨s.halt .halt, rfl, rfl, rfl⟩

/-- Settles O37: a vector that names no service stays in the term, and executing the term raises it. -/
theorem undefinedVectorRaisesBadTrap : Obligations.UndefinedVectorRaisesBadTrap := by
  constructor
  · intro w fixed undefined
    rw [← fieldImm_toNat_of_byte] at undefined
    rw [decode_of_opcode_trap (opcode_of_mask fixed), decodeTrap_of_undefined undefined]
  · exact fun v s _ => ⟨s.raise (.badTrap v), rfl, rfl, rfl⟩

/-- Settles O39: only the string walks can fail to answer a next state, and they fault when they never stop. -/
theorem onlyUnterminatedStringsStop : Obligations.OnlyUnterminatedStringsStop := by
  intro i s
  by_cases string : i = .trapPuts ∨ i = .trapPutsp
  · obtain ⟨bytesOf, walk⟩ : ∃ bytesOf, exec i s = s.stringWalk bytesOf walkFuel (s.reg 0) [] := by
      rcases string with rfl | rfl <;> exact ⟨_, rfl⟩
    rw [walk, State.stringWalk_fault_iff, and_iff_right string]
    exact ⟨s.stringWalk_ne_refused bytesOf, Iff.rfl⟩
  · obtain ⟨t, next⟩ := exec_answers s string
    simp [next, string]

/-- Settles O47, by the effects of an instruction on the I/O channel. -/
theorem ioFrameOfInstructions : Obligations.IoFrameOfInstructions := by
  intro i s t next
  have e : Effect i s t := exec_effect next
  exact ⟨e.output_frame, e.input_frame, e.options_frame⟩

/-- Settles O57: an integer in range is a byte, and the three run states answer apart. -/
theorem pushResumesOrEnqueues : Obligations.PushResumesOrEnqueues := by
  intro s c
  refine ⟨fun svc pending lo hi => ?_, fun running lo hi => State.push_of_notPending running ⟨lo, hi⟩,
    State.push_refused⟩
  obtain ⟨b, rfl⟩ : ∃ b : Byte, c = b.toNat := ⟨BitVec.ofInt 8 c, by rw [BitVec.toNat_ofInt]; omega⟩
  simp only [State.push_of_pending pending b, BitVec.ofInt_natCast, byte_toInt_eq_zero]

end Sys2Proof.Machine
end

/-! # Reserved opcodes (44_reserved.md): 0x8 and 0xD -/

section
namespace Sys2Proof

/-! ## Their words: the opcode alone gives the term, and no word is given back -/

theorem decode_of_opcode_8 {w : Word} (opcode : fieldNat w 15 12 = 0x8) : decode w = .reserved8 := by
  rw [decode_eq_fields, opcode]
  rfl

theorem decode_of_opcode_D {w : Word} (opcode : fieldNat w 15 12 = 0xD) : decode w = .reservedD := by
  rw [decode_eq_fields, opcode]
  rfl

theorem encode_reserved8 : encode .reserved8 = none := rfl

theorem encode_reservedD : encode .reservedD = none := rfl

end Sys2Proof

namespace Sys2Proof.Machine

/-! ## Their effects -/

/-- A condition always ends the run with failure (R188, R200). -/
theorem State.status_afterRaise (s : State) (c : Condition) : (s.afterRaise c).status = some .failure := rfl

theorem exec_reserved8 (s : State) : exec .reserved8 s = .next (s.afterRaise (.badOpcode (some 8#4))) := rfl

theorem exec_reservedD (s : State) : exec .reservedD s = .next (s.afterRaise (.badOpcode (some 13#4))) := rfl

/-- Settles O38: the mask of both rows fixes the opcode, the opcode alone fixes the term, and raising the condition is
the term's whole meaning. -/
theorem reservedOpcodesRaiseBadOpcode : Obligations.ReservedOpcodesRaiseBadOpcode := by
  refine ⟨fun w fixed => ?_, fun w fixed => ?_, fun s => ?_, fun s => ?_, encode_reserved8, encode_reservedD⟩
  · exact decode_of_opcode_8 (opcode_of_mask fixed)
  · exact decode_of_opcode_D (opcode_of_mask fixed)
  · exact ⟨_, exec_reserved8 s, rfl, s.status_afterRaise _⟩
  · exact ⟨_, exec_reservedD s, rfl, s.status_afterRaise _⟩

end Sys2Proof.Machine
end

/-! # Conditions (60_exceptions.md): what a step that ends in one says of the state before -/

section
namespace Sys2Proof

/-! ## What a decoded term says of its word -/

theorem opcode_tableMatch_decodeTrap (v : BitVec 8) : fieldNat (decodeTrap v).tableMatch 15 12 = 0xF := by
  unfold decodeTrap
  split <;> simp only [Instr.tableMatch] <;> rfl

/-- The row of a decoded term has the opcode of the word (R60), so the term tells the opcode. -/
theorem opcode_tableMatch_decode (w : Word) : fieldNat (decode w).tableMatch 15 12 = fieldNat w 15 12 := by
  have small : fieldNat w 15 12 < 16 := Nat.mod_lt _ (by decide)
  rw [decode_eq_fields]
  split
  case h_2 opcode | h_5 opcode | h_6 opcode =>
    rw [opcode]
    split <;> simp only [Instr.tableMatch] <;> rfl
  case h_16 =>
    rw [opcode_tableMatch_decodeTrap]
    grind
  all_goals next opcode =>
    rw [opcode]
    simp only [Instr.tableMatch]
    rfl

/-- A term keeps a trap vector only when the vector names no service (R63, R147). -/
theorem decodeTrap_eq_trap {u v : BitVec 8} (h : decodeTrap u = .trap v) :
    v = u ∧ (v.toNat < 0x20 ∨ 0x25 < v.toNat) := by
  by_cases undefined : u.toNat < 0x20 ∨ 0x25 < u.toNat
  · rw [decodeTrap_of_undefined undefined] at h
    cases h
    exact ⟨rfl, undefined⟩
  · unfold decodeTrap at h
    split at h
    case h_7 => grind
    all_goals cases h

theorem opcode_of_decode_reserved8 {w : Word} (h : decode w = .reserved8) : fieldNat w 15 12 = 8 := by
  rw [← opcode_tableMatch_decode, h]
  rfl

theorem opcode_of_decode_reservedD {w : Word} (h : decode w = .reservedD) : fieldNat w 15 12 = 13 := by
  rw [← opcode_tableMatch_decode, h]
  rfl

theorem word_of_decode_trap {w : Word} {v : BitVec 8} (h : decode w = .trap v) :
    fieldNat w 15 12 = 15 ∧ v = fieldImm w 8 ∧ (v.toNat < 0x20 ∨ 0x25 < v.toNat) := by
  have opcode : fieldNat w 15 12 = 15 := by
    rw [← opcode_tableMatch_decode, h, Instr.tableMatch]
    rfl
  rw [decode_of_opcode_trap opcode] at h
  exact ⟨opcode, decodeTrap_eq_trap h⟩

end Sys2Proof

namespace Sys2Proof.Machine

/-! ## The ways into a condition -/

/-- A retire ends the run at the end of memory only, never in a condition (R97). -/
theorem State.condition_of_retire {s : State} {npc : Nat} {c : Condition}
    (ended : (s.retire npc).runState = .halted (.condition c)) : s.runState = .halted (.condition c) := by
  rw [State.runState_retire] at ended
  split at ended
  · cases ended
  · exact ended

/-- An instruction of a Running core ends in a condition only by taking it, which changes nothing else (R188). -/
theorem Effect.raise_of_condition {i : Instr} {s t : State} {c : Condition} (e : Effect i s t)
    (running : s.runState = .running none) (ended : t.runState = .halted (.condition c)) :
    raiseCause i s c ∧ t = s.raise c := by
  cases e with
  | raise _ cause =>
    cases ended
    exact ⟨cause, rfl⟩
  | result =>
    rw [← State.writeResult_retireSeq] at ended
    have kept := State.condition_of_retire ended
    exact nomatch running.symm.trans kept
  | branch | noBranch | jump | call | callReg | store | output | getcRead | inRead =>
    have kept := State.condition_of_retire ended
    exact nomatch running.symm.trans kept
  | getcSuspend | inSuspend | halt => cases ended

/-- The step cap is reached only where there is one (R94). -/
theorem State.capReached_eq_true {s : State} :
    s.capReached = true ↔ ∃ limit, s.stepLimit = some limit ∧ limit ≤ s.steps := by
  unfold State.capReached
  split <;> simp [*]

theorem State.fetch_of_lt {s : State} {a : Word} (h : uval a < s.memWords) :
    s.fetch a = some (s.mem.read (uval a)) := if_pos h

/-- The three ways of a step into a condition: the cap before the fetch, a fetch that finds no cell, and an instruction
that takes it (R94, R95, R188). -/
theorem step_condition {s t : State} {c : Condition} (stepped : step s = .next t)
    (ended : t.runState = .halted (.condition c)) :
    (c = .stepLimit ∧ s.capReached = true ∧ t = s.raise c) ∨
      (c = .badOpcode none ∧ s.memWords ≤ uval s.pc ∧ t = s.advancePc.raise c) ∨
      ∃ w, s.fetch s.pc = some w ∧ raiseCause (decode w) s.advancePc c ∧ t = s.advancePc.raise c := by
  obtain ⟨running, ⟨cap, rfl⟩ | ⟨-, noCell, rfl⟩ | ⟨-, cell, executed⟩⟩ := step_next stepped
  · cases ended
    exact .inl ⟨rfl, cap, rfl⟩
  · cases ended
    exact .inr (.inl ⟨rfl, noCell, rfl⟩)
  · exact .inr (.inr ⟨_, State.fetch_of_lt cell, (exec_effect executed).raise_of_condition running ended⟩)

/-- No step follows a halt (R93, R209). -/
theorem step_of_halted {s : State} {cause : Cause} (halted : s.runState = .halted cause) :
    step s = .refused .stepWhileHalted := by
  rw [step, State.stepRefusal, halted]

/-! ## The statements -/

/-- Settles O45: of the three ways into a condition only the step cap comes before the fetch, and an instruction never
takes StepLimit. -/
theorem conditionsArePrecise : Obligations.ConditionsArePrecise := by
  intro s t c stepped ended
  suffices after : t = State.afterRaise { s with pc := if c = .stepLimit then s.pc else s.pc + 1#16 } c from
    ⟨after, after ▸ State.status_afterRaise _ c, _, step_of_halted ended⟩
  obtain ⟨rfl, -, rfl⟩ | ⟨rfl, -, rfl⟩ | ⟨w, -, cause, rfl⟩ := step_condition stepped ended
  · rfl
  · rfl
  · have notCap : c ≠ .stepLimit := by
      rintro rfl
      exact cause
    rw [if_neg notCap]
    rfl

/-- Settles O46: the cause of each way into a condition, and the word behind the term of an instruction that takes
one. -/
theorem conditionsHaveTheirCause : Obligations.ConditionsHaveTheirCause := by
  intro s t c stepped ended
  obtain ⟨rfl, cap, -⟩ | ⟨rfl, noCell, -⟩ | ⟨w, fetched, cause, -⟩ := step_condition stepped ended
  · exact State.capReached_eq_true.mp cap
  · exact noCell
  · match c, cause with
    | .badOpcode (some _), .inl ⟨rfl, decoded⟩ =>
      exact ⟨w, fetched, (opcode_of_decode_reserved8 decoded).symm, .inl rfl⟩
    | .badOpcode (some _), .inr ⟨rfl, decoded⟩ =>
      exact ⟨w, fetched, (opcode_of_decode_reservedD decoded).symm, .inr rfl⟩
    | .badTrap _, decoded => exact ⟨w, fetched, word_of_decode_trap decoded⟩
    | .unmappedAccess _, unmapped => exact unmapped

end Sys2Proof.Machine
end

/-! # Reset and the host's calls (70_reset_and_hazards.md): start, push, abort, the invariant and `run` -/

section
namespace Sys2Proof.Machine

/-! ## What each call of the host answers (R200 to R211) -/

theorem State.start_of_running {s : State} {p : Option Service} (running : s.runState = .running p)
    (program : List Word) (o : Options) : s.start program o = .refused .startWhileRunning := by
  rw [State.start, running]

/-- Outside Running the answer of `start` looks at its arguments only (R203). -/
theorem State.start_of_notRunning {s : State} (notRunning : ∀ p, s.runState ≠ .running p) (program : List Word)
    (o : Options) :
    s.start program o =
      if 1 ≤ o.memWords ∧ o.memWords ≤ 65536 then .next (resetState program o)
      else .refused .memWordsOutOfRange := by
  unfold State.start
  cases state : s.runState with
  | running p => exact absurd state (notRunning p)
  | idle | halted => rfl

/-- An accepted `start` was not made while Running, had a legal memory size, and resets (R202, R203, R30). -/
theorem State.start_next {s t : State} {program : List Word} {o : Options} (started : s.start program o = .next t) :
    (∀ p, s.runState ≠ .running p) ∧ (1 ≤ o.memWords ∧ o.memWords ≤ 65536) ∧ t = resetState program o := by
  have notRunning : ∀ p, s.runState ≠ .running p := fun p running =>
    nomatch (State.start_of_running running program o).symm.trans started
  rw [State.start_of_notRunning notRunning] at started
  split at started
  · next legal =>
    cases started
    exact ⟨notRunning, legal, rfl⟩
  · cases started

/-- An accepted `push` resumes the pending read with a byte, or puts a byte at the end of the queue (R148, R149). -/
theorem State.push_next {s t : State} {c : Int} (pushed : s.push c = .next t) :
    ∃ b : Byte, (∃ svc, s.runState = .running (some svc)) ∧ t = s.resume b ∨
      s.runState = .running none ∧ t = { s with inq := s.inq ++ [b] } := by
  refine ⟨BitVec.ofInt 8 c, ?_⟩
  unfold State.push at pushed
  cases state : s.runState with
  | idle | halted =>
    rw [state] at pushed
    cases pushed
  | running p =>
    simp only [state] at pushed
    split at pushed
    · cases p with
      | some svc =>
        cases pushed
        exact .inl ⟨⟨svc, rfl⟩, rfl⟩
      | none =>
        cases pushed
        exact .inr ⟨rfl, rfl⟩
    · cases pushed

theorem State.abort_of_running {s : State} {p : Option Service} (running : s.runState = .running p) :
    s.abort = .next (s.raise .cancelled) := by
  rw [State.abort, running]

theorem State.abort_of_notRunning {s : State} (notRunning : ∀ p, s.runState ≠ .running p) :
    s.abort = .refused .abortWhileNotRunning := by
  unfold State.abort
  cases state : s.runState with
  | running p => exact absurd state (notRunning p)
  | idle | halted => rfl

/-- An accepted `abort` was made while Running, and takes Cancelled (R211). -/
theorem State.abort_next {s t : State} (aborted : s.abort = .next t) :
    (∃ p, s.runState = .running p) ∧ t = s.raise .cancelled := by
  by_cases isRunning : ∃ p, s.runState = .running p
  · obtain ⟨p, running⟩ := isRunning
    rw [State.abort_of_running running] at aborted
    cases aborted
    exact ⟨⟨p, running⟩, rfl⟩
  · rw [State.abort_of_notRunning (not_exists.mp isRunning)] at aborted
    cases aborted

theorem State.start_ne_fault (s : State) (program : List Word) (o : Options) (f : Fault) :
    s.start program o ≠ .fault f := by
  unfold State.start
  cases s.runState with
  | running p => exact nofun
  | idle | halted =>
    dsimp only
    split <;> exact nofun

theorem State.push_ne_fault (s : State) (c : Int) (f : Fault) : s.push c ≠ .fault f := by
  unfold State.push
  cases s.runState with
  | idle | halted => exact nofun
  | running p =>
    dsimp only
    split
    · cases p <;> exact nofun
    · exact nofun

theorem State.abort_ne_fault (s : State) (f : Fault) : s.abort ≠ .fault f := by
  unfold State.abort
  cases s.runState <;> exact nofun

theorem State.answer_ne_fault (s : State) (a : WaitAnswer) (f : Fault) : s.call a.toCall ≠ .fault f := by
  cases a with
  | push c => exact s.push_ne_fault c f
  | abort => exact s.abort_ne_fault f

/-- A step of a Running core with no pending read is never refused (R93): no instruction is. -/
theorem step_ne_refused {s : State} (running : s.runState = .running none) (r : Refusal) : step s ≠ .refused r := by
  unfold step
  rw [State.stepRefusal_eq_none.mpr running]
  dsimp only
  split
  · exact nofun
  · split
    · exact nofun
    · exact (onlyUnterminatedStringsStop _ _).1 r

/-! ## The transitions of the run state (R200) -/

/-- A retire of a Running core goes on, or ends the run at the end of memory (R97). -/
theorem State.retire_running_or_ended {s : State} (running : s.runState = .running none) (npc : Nat) :
    (s.retire npc).runState = .running none ∨ (s.retire npc).runState = .halted .endOfMemory := by
  rw [State.runState_retire, running]
  split
  · exact .inr rfl
  · exact .inl rfl

/-- The run states after a step from `s`: it goes on, suspends on an empty queue, or halts, and never as an abort does
(R200). -/
def StepLeaves (s : State) (after : RunState) : Prop :=
  after = .running none ∨ (∃ svc, after = .running (some svc) ∧ s.inq = []) ∨
    ∃ cause, after = .halted cause ∧ cause ≠ .condition .cancelled

theorem StepLeaves.retire {s u : State} (running : u.runState = .running none) (npc : Nat) :
    StepLeaves s (u.retire npc).runState :=
  (State.retire_running_or_ended running npc).imp_right fun ended => .inr ⟨.endOfMemory, ended, nofun⟩

theorem Effect.runState {i : Instr} {s t : State} (e : Effect i s t) (running : s.runState = .running none) :
    StepLeaves s t.runState := by
  cases e with
  | result =>
    rw [← State.writeResult_retireSeq]
    refine .retire ?_ _
    exact running
  | branch | noBranch | jump | call | callReg | store | output | getcRead | inRead =>
    refine .retire ?_ _
    exact running
  | getcSuspend queue | inSuspend queue => exact .inr (.inl ⟨_, rfl, queue⟩)
  | raise _ cause =>
    refine .inr (.inr ⟨_, rfl, ?_⟩)
    rintro ⟨⟩
    exact cause
  | halt => exact .inr (.inr ⟨_, rfl, nofun⟩)

theorem step_transition {s t : State} (stepped : step s = .next t) :
    s.runState = .running none ∧ StepLeaves s t.runState := by
  obtain ⟨running, ⟨-, rfl⟩ | ⟨-, -, rfl⟩ | ⟨-, -, executed⟩⟩ := step_next stepped
  · exact ⟨running, .inr (.inr ⟨_, rfl, nofun⟩)⟩
  · exact ⟨running, .inr (.inr ⟨_, rfl, nofun⟩)⟩
  · exact ⟨running, (exec_effect executed).runState running⟩

theorem State.push_transition {s t : State} {c : Int} (pushed : s.push c = .next t) :
    (∃ svc, s.runState = .running (some svc) ∧
        (t.runState = .running none ∨ t.runState = .halted .endOfMemory)) ∨
      (s.runState = .running none ∧ t.runState = .running none) := by
  obtain ⟨b, ⟨⟨svc, pending⟩, rfl⟩ | ⟨running, rfl⟩⟩ := State.push_next pushed
  · exact .inl ⟨svc, pending, State.retire_running_or_ended rfl _⟩
  · exact .inr ⟨running, running⟩

/-- No call of the host leads to Idle: only the end of `run` does (R208). -/
theorem State.call_ne_idle {s t : State} {c : HostCall} (called : s.call c = .next t) : t.runState ≠ .idle := by
  cases c with
  | start program o =>
    obtain ⟨-, -, rfl⟩ := State.start_next called
    exact nofun
  | step => obtain ⟨-, after | ⟨_, after, -⟩ | ⟨_, after, -⟩⟩ := step_transition called <;> simp [after]
  | push c => obtain ⟨_, -, after | after⟩ | ⟨-, after⟩ := State.push_transition called <;> simp [after]
  | abort =>
    obtain ⟨-, rfl⟩ := State.abort_next called
    exact nofun

theorem Cause.status_eq_success (cause : Cause) : cause.status = .success ↔ cause = .halt ∨ cause = .endOfMemory := by
  cases cause <;> simp [Cause.status]

theorem State.status_of_halted {s : State} {cause : Cause} (halted : s.runState = .halted cause) :
    s.status = some cause.status := by
  rw [State.status, halted]

theorem State.status_of_running {s : State} {p : Option Service} (running : s.runState = .running p) :
    s.status = none := by
  rw [State.status, running]

/-- Outside Idle there is no status exactly while Running, and success exactly for the two causes of it (R200). -/
theorem State.status_of_ne_idle {s : State} (notIdle : s.runState ≠ .idle) :
    (s.status = none ↔ ∃ p, s.runState = .running p) ∧
      (s.status = some .success ↔ s.runState = .halted .halt ∨ s.runState = .halted .endOfMemory) := by
  cases state : s.runState with
  | idle => exact absurd state notIdle
  | running p => simp [State.status_of_running state]
  | halted cause => simp [State.status_of_halted state, Cause.status_eq_success]

/-! ## The invariant over the host's calls -/

/-- Loading words leaves every cell inside memory (R204, R205). -/
theorem loadWords_inside (n : Nat) {m : Memory} (inside : ∀ c ∈ m, c.1 < n) (base : Nat) (ws : List Word) :
    ∀ c ∈ loadWords n m base ws, c.1 < n := by
  induction ws generalizing m base with
  | nil => exact inside
  | cons w ws ih =>
    refine ih (fun c hc => ?_) (base + 1)
    split at hc
    · next hb =>
      rcases Memory.mem_write hc with rfl | old
      · exact hb
      · exact inside c old
    · exact inside c hc

theorem resetState_inv (program : List Word) {o : Options} (legal : 1 ≤ o.memWords ∧ o.memWords ≤ 65536) :
    (resetState program o).Inv := by
  have sound : (resetState program o).Sound :=
    { memWf := loadWords_wf _ (loadWords_wf _ Memory.wf_nil _ _) _ _
      memInside := loadWords_inside _ (loadWords_inside _ (by simp) _ _) _ _
      memWordsLegal := legal
      condLegal := .inl rfl
      withinCap := fun limit _ => Nat.zero_le limit
      sinkSawLog := by cases o.sinkAttached <;> simp [resetState] }
  exact sound.inv_of_running rfl rfl (.inr ⟨rfl, rfl⟩)

/-- The byte of a pending read finds the suspended instruction executing: it began below the cap (R94, R149). -/
theorem State.Inv.executing_resumed {s : State} (h : s.Inv) {svc : Service}
    (pending : s.runState = .running (some svc)) : State.Executing { s with runState := .running none } :=
  { h.sound with
    running := rfl
    noError := h.error_of_running pending
    below := fun limit hl => (h.belowCap limit hl).2 svc pending }

/-- A byte may join the queue while no read is pending (R148). -/
theorem State.Inv.enqueue {s : State} (h : s.Inv) (running : s.runState = .running none) (b : Byte) :
    State.Inv { s with inq := s.inq ++ [b] } :=
  { h with pendingQueueEmpty := fun _ pending => nomatch running.symm.trans pending }

theorem State.Inv.call {s t : State} {c : HostCall} (h : s.Inv) (called : s.call c = .next t) : t.Inv := by
  cases c with
  | start program o =>
    obtain ⟨-, legal, rfl⟩ := State.start_next called
    exact resetState_inv program legal
  | step => exact stepKeepsInvariant s t h called
  | push c =>
    obtain ⟨b, ⟨⟨svc, pending⟩, rfl⟩ | ⟨running, rfl⟩⟩ := State.push_next called
    · exact (h.executing_resumed pending).deliver_inv b
    · exact h.enqueue running b
  | abort =>
    obtain ⟨-, rfl⟩ := State.abort_next called
    exact h.sound.raise_inv _

/-- What every accepted call keeps, every sequence of calls keeps: a refused call changes nothing. -/
theorem State.calls_keep {P : State → Prop} (keep : ∀ {s t : State} {c : HostCall}, P s → s.call c = .next t → P t)
    {s t : State} {cs : List HostCall} (h : P s) (called : s.calls cs = .next t) : P t := by
  induction cs generalizing s with
  | nil =>
    cases called
    exact h
  | cons c cs ih =>
    cases first : s.call c with
    | next u => exact ih (keep h first) ((State.calls_cons_next first cs).symm.trans called)
    | refused r => exact ih h ((State.calls_cons_refused first cs).symm.trans called)
    | fault f => exact nomatch (State.calls_cons_fault first cs).symm.trans called

/-! ## What `start` loads -/

/-- Words loaded over cells that read 0: past the last word the cells still read 0. -/
theorem loadWords_read_over_zero {m : Memory} {base a : Nat} (zero : base ≤ a → m.read a = 0x0000#16) (n : Nat)
    (ws : List Word) :
    (loadWords n m base ws).read a = if a < n ∧ base ≤ a then ws.getD (a - base) 0x0000#16 else m.read a := by
  rw [loadWords_read]
  by_cases cell : a < n ∧ base ≤ a
  · rcases lt_or_ge a (base + ws.length) with given | past
    · rw [if_pos ⟨cell.1, cell.2, given⟩, if_pos cell]
    · rw [if_neg (by omega), if_pos cell, zero cell.2, List.getD_eq_default _ _ (by omega)]
  · rw [if_neg (by omega), if_neg cell]

/-- Low memory holds at most its first 3000 words, cut at the memory size, and 0 elsewhere (R204). -/
theorem lowmem_read (n : Nat) (ws : List Word) (a : Nat) :
    (loadWords n [] 0 (ws.take 3000)).read a = if a < n ∧ a < 3000 then ws.getD a 0x0000#16 else 0x0000#16 := by
  rw [loadWords_read_over_zero (fun _ => rfl), Nat.sub_zero]
  by_cases kept : a < 3000 <;> simp [List.getD_eq_getElem?_getD, kept, Memory.read, unlistedWord]

/-- Every cell after `start` (R203 to R205). -/
theorem resetState_read (program : List Word) (o : Options) (a : Nat) :
    (resetState program o).mem.read a =
      if o.memWords ≤ a then 0x0000#16
      else if a < 3000 then o.lowmem.getD a 0x0000#16
      else if 0x3000 ≤ a then program.getD (a - 0x3000) 0x0000#16
      else 0x0000#16 := by
  have low := lowmem_read o.memWords o.lowmem a
  have cleared : 0x3000 ≤ a → (loadWords o.memWords [] 0 (o.lowmem.take 3000)).read a = 0x0000#16 := fun high => by
    rw [low, if_neg (by omega)]
  refine (loadWords_read_over_zero cleared o.memWords program).trans ?_
  rw [low]
  grind

/-! ## The loop of `run` (R206) -/

theorem State.snapshot_of_halted {s : State} {cause : Cause} (halted : s.runState = .halted cause) :
    s.snapshot = some
      { status := cause.status, error := s.error, regs := s.regs, pc := s.pc, cond := s.cond, mem := s.mem,
        memWords := s.memWords, output := s.outlog } := by
  rw [State.snapshot, halted]

theorem State.snapshot_of_running {s : State} {p : Option Service} (running : s.runState = .running p) :
    s.snapshot = none := by
  rw [State.snapshot, running]

theorem State.drive_of_snapshot {s : State} {outcome : RunOutcome} (taken : s.snapshot = some outcome) (rounds : Nat)
    (answers : List WaitAnswer) : s.drive rounds answers = .finished outcome s.toIdle := by
  rw [State.drive.eq_def, taken]

theorem State.drive_zero {s : State} {p : Option Service} (running : s.runState = .running p)
    (answers : List WaitAnswer) : s.drive 0 answers = .unfinished s := by
  rw [State.drive, State.snapshot_of_running running]

theorem State.drive_pending_nil {s : State} {svc : Service} (pending : s.runState = .running (some svc)) (left : Nat) :
    s.drive (left + 1) [] = .unfinished s := by
  rw [State.drive, State.snapshot_of_running pending, pending]

theorem State.drive_pending_next {s t : State} {svc : Service} (pending : s.runState = .running (some svc))
    {a : WaitAnswer} (accepted : s.call a.toCall = .next t) (left : Nat) (rest : List WaitAnswer) :
    s.drive (left + 1) (a :: rest) = t.drive left rest := by
  simp only [State.drive, State.snapshot_of_running pending, pending, accepted]

theorem State.drive_pending_refused {s : State} {svc : Service} (pending : s.runState = .running (some svc))
    {a : WaitAnswer} {r : Refusal} (refused : s.call a.toCall = .refused r) (left : Nat) (rest : List WaitAnswer) :
    s.drive (left + 1) (a :: rest) = s.drive left rest := by
  rw [State.drive.eq_def]
  simp only [State.snapshot_of_running pending, pending, refused]

theorem State.drive_step_next {s t : State} (running : s.runState = .running none) (stepped : step s = .next t)
    (left : Nat) (answers : List WaitAnswer) : s.drive (left + 1) answers = t.drive left answers := by
  rw [State.drive.eq_def]
  simp only [State.snapshot_of_running running, running, stepped]

theorem State.drive_step_fault {s : State} {f : Fault} (running : s.runState = .running none)
    (stuck : step s = .fault f) (left : Nat) (answers : List WaitAnswer) :
    s.drive (left + 1) answers = .stuck f := by
  rw [State.drive.eq_def]
  simp only [State.snapshot_of_running running, running, stuck]

theorem State.run_of_started {s t : State} {program : List Word} {o : Options} (started : s.start program o = .next t)
    (rounds : Nat) (answers : List WaitAnswer) : s.run rounds program o answers = t.drive rounds answers := by
  rw [State.run, started]

theorem State.run_of_refused {s : State} {program : List Word} {o : Options} {r : Refusal}
    (refused : s.start program o = .refused r) (rounds : Nat) (answers : List WaitAnswer) :
    s.run rounds program o answers = .rejected r := by
  rw [State.run, refused]

/-- What a result of the loop says of the calls that it made from `s`: the claim of `RunEndsIdleWithSnapshot` about the
started state. -/
def State.DrivesTo (s : State) (rounds : Nat) (answers : List WaitAnswer) : RunResult → Prop
  | .rejected _ => False
  | .finished outcome t => ∃ cs u, s.LoopCalls answers cs ∧ cs.length ≤ rounds ∧
      s.calls cs = .next u ∧ u.snapshot = some outcome ∧ t = u.toIdle
  | .unfinished t => ∃ cs, s.LoopCalls answers cs ∧ s.calls cs = .next t ∧ (∃ p, t.runState = .running p) ∧
      (cs.length = rounds ∨
        cs.length < rounds ∧ (∃ svc, t.runState = .running (some svc)) ∧
          cs.filter (· ≠ .step) = answers.map WaitAnswer.toCall)
  | .stuck f => ∃ cs, s.LoopCalls answers cs ∧ cs.length < rounds ∧ s.calls (cs ++ [.step]) = .fault f

/-- A round in front of a result: its call is allowed in `s` and leads to `t`, as in `State.LoopCalls.cons`. -/
theorem State.DrivesTo.cons {s t : State} {c : HostCall} {left : Nat} {answers rest : List WaitAnswer}
    {result : RunResult} (lead : ∀ cs, s.calls (c :: cs) = t.calls cs)
    (allowed : if c = .step then s.runState = .running none else ∃ svc, s.runState = .running (some svc))
    (order : [c].filter (· ≠ .step) ++ rest.map WaitAnswer.toCall = answers.map WaitAnswer.toCall)
    (h : t.DrivesTo left rest result) : s.DrivesTo (left + 1) answers result := by
  cases result with
  | rejected r => exact h
  | finished outcome v =>
    obtain ⟨cs, u, loop, short, calls, taken, idle⟩ := h
    exact ⟨c :: cs, u, loop.cons lead allowed order, Nat.succ_le_succ short, (lead cs).trans calls, taken, idle⟩
  | stuck f =>
    obtain ⟨cs, loop, short, calls⟩ := h
    exact ⟨c :: cs, loop.cons lead allowed order, Nat.succ_lt_succ short, (lead _).trans calls⟩
  | unfinished v =>
    obtain ⟨cs, loop, calls, running, ends⟩ := h
    refine ⟨c :: cs, loop.cons lead allowed order, (lead cs).trans calls, running, ?_⟩
    refine ends.imp (congrArg Nat.succ) fun ⟨short, pending, used⟩ => ⟨Nat.succ_lt_succ short, pending, ?_⟩
    rw [← order, ← used, ← List.singleton_append, List.filter_append]

theorem State.drivesTo_of_halted {s : State} {cause : Cause} (halted : s.runState = .halted cause) (rounds : Nat)
    (answers : List WaitAnswer) : s.DrivesTo rounds answers (s.drive rounds answers) := by
  have taken := State.snapshot_of_halted halted
  rw [State.drive_of_snapshot taken]
  exact ⟨[], s, .nil s answers, Nat.zero_le _, rfl, taken, rfl⟩

/-- A round with a pending read: the next answer, accepted or refused, is the call of the round. -/
theorem State.drivesTo_of_pending {s : State} {svc : Service} (pending : s.runState = .running (some svc)) {left : Nat}
    (ih : ∀ {t : State}, t.runState ≠ .idle → ∀ rest, t.DrivesTo left rest (t.drive left rest))
    (answers : List WaitAnswer) : s.DrivesTo (left + 1) answers (s.drive (left + 1) answers) := by
  cases answers with
  | nil =>
    rw [State.drive_pending_nil pending]
    exact ⟨[], .nil s [], rfl, ⟨_, pending⟩, .inr ⟨Nat.succ_pos left, ⟨svc, pending⟩, rfl⟩⟩
  | cons a rest =>
    have allowed : if a.toCall = .step then s.runState = .running none
        else ∃ svc, s.runState = .running (some svc) := by
      rw [if_neg a.toCall_ne_step]
      exact ⟨svc, pending⟩
    have order : [a.toCall].filter (· ≠ .step) ++ rest.map WaitAnswer.toCall = (a :: rest).map WaitAnswer.toCall := by
      simp
    cases called : s.call a.toCall with
    | next t =>
      rw [State.drive_pending_next pending called]
      exact (ih (State.call_ne_idle called) _).cons (State.calls_cons_next called) allowed order
    | refused r =>
      rw [State.drive_pending_refused pending called]
      exact (ih (by simp [pending]) _).cons (State.calls_cons_refused called) allowed order
    | fault f => exact absurd called (s.answer_ne_fault a f)

/-- A round with no pending read: the call of the round is a step, which is never refused. -/
theorem State.drivesTo_of_running {s : State} (running : s.runState = .running none) {left : Nat}
    (ih : ∀ {t : State}, t.runState ≠ .idle → ∀ rest, t.DrivesTo left rest (t.drive left rest))
    (answers : List WaitAnswer) : s.DrivesTo (left + 1) answers (s.drive (left + 1) answers) := by
  cases stepped : step s with
  | next t =>
    rw [State.drive_step_next running stepped]
    have called : s.call .step = .next t := stepped
    exact (ih (State.call_ne_idle called) _).cons (State.calls_cons_next called) running rfl
  | fault f =>
    rw [State.drive_step_fault running stepped]
    exact ⟨[], .nil s answers, Nat.succ_pos left, State.calls_cons_fault (c := .step) stepped []⟩
  | refused r => exact absurd stepped (step_ne_refused running r)

/-- The loop from a state that is not Idle, round by round. -/
theorem State.drive_drivesTo {s : State} (notIdle : s.runState ≠ .idle) (rounds : Nat) (answers : List WaitAnswer) :
    s.DrivesTo rounds answers (s.drive rounds answers) := by
  induction rounds generalizing s answers with
  | zero =>
    cases state : s.runState with
    | idle => exact absurd state notIdle
    | halted cause => exact State.drivesTo_of_halted state 0 answers
    | running p =>
      rw [State.drive_zero state]
      exact ⟨[], .nil s answers, rfl, ⟨p, state⟩, .inl rfl⟩
  | succ left ih =>
    cases state : s.runState with
    | idle => exact absurd state notIdle
    | halted cause => exact State.drivesTo_of_halted state (left + 1) answers
    | running p =>
      cases p with
      | some svc => exact State.drivesTo_of_pending state ih answers
      | none => exact State.drivesTo_of_running state ih answers

/-! ## The statements -/

/-- Settles O51, since every accepted call keeps the invariant. -/
theorem hostCallsKeepInvariant : Obligations.HostCallsKeepInvariant :=
  fun _ _ _ h called => State.calls_keep State.Inv.call h called

/-- Settles O49: the transition of each call, and no call leads to Idle. -/
theorem runStateFollowsTransitionTable : Obligations.RunStateFollowsTransitionTable := by
  intro s t c called
  refine ⟨?_, State.status_of_ne_idle (State.call_ne_idle called)⟩
  cases c with
  | start program o =>
    obtain ⟨notRunning, -, rfl⟩ := State.start_next called
    exact ⟨notRunning, rfl⟩
  | step => exact step_transition called
  | push c => exact State.push_transition called
  | abort =>
    obtain ⟨running, rfl⟩ := State.abort_next called
    exact ⟨running, rfl⟩

/-- Settles O55: the fields of the reset state, and its cells as the two loads leave them. -/
theorem startResetsAndLoads : Obligations.StartResetsAndLoads := by
  intro s program o notRunning positive bounded
  refine ⟨resetState program o, (State.start_of_notRunning notRunning program o).trans (if_pos ⟨positive, bounded⟩),
    fun r => ?_, rfl, rfl, rfl, rfl, rfl, rfl, rfl, rfl, rfl, rfl, rfl, resetState_read program o⟩
  simp [State.reg_def, resetState]

/-- Settles O60: `run` is its `start`, and then the loop from a state that is not Idle. -/
theorem runEndsIdleWithSnapshot : Obligations.RunEndsIdleWithSnapshot := by
  intro s rounds program o answers
  cases call : s.start program o with
  | refused r => exact State.run_of_refused call rounds answers
  | fault f => exact s.start_ne_fault program o f call
  | next started =>
    have called : s.call (.start program o) = .next started := call
    have reached := State.drive_drivesTo (State.call_ne_idle called) rounds answers
    simp only [State.run_of_started call, State.calls_cons_next called]
    cases result : started.drive rounds answers <;> rw [result] at reached <;> exact reached

/-- Settles O56: while Running `start` is refused, and otherwise its answer does not look at the state. -/
theorem startRejectedOrForgets : Obligations.StartRejectedOrForgets := by
  refine ⟨fun s program o p running => ?_, fun s u program o hs hu => ?_, fun s program o notRunning illegal => ?_⟩
  · have refused := State.start_of_running running program o
    exact ⟨refused, State.calls_cons_refused (c := .start program o) refused []⟩
  · rw [State.start_of_notRunning hs, State.start_of_notRunning hu]
  · have refused := (State.start_of_notRunning notRunning program o).trans (if_neg (by omega))
    exact ⟨refused, State.calls_cons_refused (c := .start program o) refused []⟩

/-- Settles O58: taking Cancelled is the whole of an accepted `abort`, and a refused one changes nothing. -/
theorem abortCancelsRunningCore : Obligations.AbortCancelsRunningCore := by
  refine fun s => ⟨fun p running => ?_, fun notRunning => ?_⟩
  · exact ⟨_, State.abort_of_running running, rfl, s.status_afterRaise _⟩
  · exact State.calls_cons_refused (c := .abort) (State.abort_of_notRunning notRunning) []

/-- Settles O59: by the invariant the error of a halted core is the condition that is its cause. -/
theorem snapshotCapturesHaltedState : Obligations.SnapshotCapturesHaltedState := by
  intro s cause h halted
  refine ⟨_, State.snapshot_of_halted halted, rfl, rfl, rfl, rfl, rfl, rfl, rfl, Cause.status_eq_success cause, ?_⟩
  obtain idle | errorIsCause := h.errorIsCause
  · exact nomatch halted.symm.trans idle
  · rw [halted] at errorIsCause
    rw [Cause.status_eq_success, Option.eq_none_iff_forall_ne_some]
    cases cause <;> simp [errorIsCause]

end Sys2Proof.Machine
end

/-! # The decoder's test vectors (95_test_vectors.md section 2.3) -/

section
namespace Sys2Proof

/-- Settles O1: the eleven words are closed, and the decoder evaluates on each of them (R60). -/
theorem decodeReadsSpecWords : Obligations.DecodeReadsSpecWords := by
  unfold Obligations.DecodeReadsSpecWords
  decide

end Sys2Proof
end

/-! # Encoding (30_encoding.md section 1): the codec -/

section
namespace Sys2Proof

theorem packSigned_of_width {n : Nat} (width : n < 2 ∨ 64 < n) (v : Int) :
    packSigned v n = .error (.fieldOverflow n v) := if_pos width

theorem packSigned_of_outside {n : Nat} (lo : 2 ≤ n) (hi : n ≤ 64) {v : Int}
    (outside : v < -2 ^ (n - 1) ∨ 2 ^ (n - 1) - 1 < v) : packSigned v n = .error (.fieldOverflow n v) := by
  rw [packSigned, if_neg (by omega), if_pos outside]

theorem packSigned_of_inside {n : Nat} (lo : 2 ≤ n) (hi : n ≤ 64) {v : Int} (least : -2 ^ (n - 1) ≤ v)
    (greatest : v ≤ 2 ^ (n - 1) - 1) : packSigned v n = .ok (v % 2 ^ n).toNat := by
  rw [packSigned, if_neg (by omega), if_neg (by omega)]

/-- Unpacking reads the low bits as a two's-complement pattern (R53). -/
theorem unpackSigned_eq_toInt (f n : Nat) : unpackSigned f (n + 1) = (BitVec.ofNat (n + 1) f).toInt := by
  have double : 2 ^ (n + 1) = 2 * 2 ^ n := Nat.pow_succ'
  rw [unpackSigned, BitVec.toInt_eq_toNat_cond, BitVec.toNat_ofNat, Nat.add_sub_cancel]
  by_cases negative : 2 ^ n ≤ f % 2 ^ (n + 1)
  · rw [if_pos negative, if_neg (by omega)]
    push_cast
    rfl
  · rw [if_neg negative, if_pos (by omega)]

/-- The packed pattern has `n` bits, and as an integer it is the residue of the value (R52). -/
theorem packed_pattern (v : Int) (n : Nat) : (v % 2 ^ n).toNat < 2 ^ n ∧ ((v % 2 ^ n).toNat : Int) = v % 2 ^ n := by
  have positive : (0 : Int) < 2 ^ n := by positivity
  have reading : ((v % 2 ^ n).toNat : Int) = v % 2 ^ n := Int.toNat_of_nonneg (Int.emod_nonneg v positive.ne')
  refine ⟨?_, reading⟩
  zify
  rw [reading]
  exact Int.emod_lt_of_pos v positive

/-- Settles O6: the two checks of R52 in their order, then the pattern. -/
theorem packSignedChecksRange : Obligations.PackSignedChecksRange :=
  fun v n => ⟨fun width => packSigned_of_width width v, fun lo hi => packSigned_of_outside lo hi,
    fun lo hi least greatest => ⟨_, packSigned_of_inside lo hi least greatest, packed_pattern v n⟩⟩

/-- Settles O7: both directions go through the `n`-bit pattern, whose signed reading packs to the pattern. -/
theorem codecRoundTrip : Obligations.CodecRoundTrip := by
  constructor
  · rintro v (_ | n) lo hi least greatest
    · omega
    have reading : (BitVec.ofInt (n + 1) v).toInt = v :=
      BitVec.toInt_ofInt_eq_self n.succ_pos least (Int.lt_of_le_sub_one greatest)
    have packed := packSigned_toInt lo hi (BitVec.ofInt (n + 1) v)
    rw [reading] at packed
    refine ⟨_, packed, ?_⟩
    rw [unpackSigned_eq_toInt, BitVec.ofNat_toNat, BitVec.setWidth_eq, reading]
  · rintro f (_ | n) lo hi below
    · omega
    rw [unpackSigned_eq_toInt, packSigned_toInt lo hi, BitVec.toNat_ofNat, Nat.mod_eq_of_lt below]

end Sys2Proof
end

/-! # Encoding (30_encoding.md sections 5 and 6): the encoder functions -/

section
namespace Sys2Proof

/-! ## Checked operands -/

theorem reg3_eq (r : Int) :
    reg3 r = if r < 0 ∨ 7 < r then .error (.fieldOverflow 3 r) else .ok (BitVec.ofInt 16 r) := by
  by_cases outside : r < 0 ∨ 7 < r
  · rw [if_pos outside, reg3, if_neg (by omega)]
  · rw [if_neg outside, reg3, if_pos (by omega)]

theorem u8_eq (v : Int) :
    u8 v = if v < 0 ∨ 255 < v then .error (.fieldOverflow 8 v) else .ok (BitVec.ofInt 16 v) := by
  by_cases outside : v < 0 ∨ 255 < v
  · rw [if_pos outside, u8, if_neg (by omega)]
  · rw [if_neg outside, u8, if_pos (by omega)]

theorem signedField_eq {n : Nat} (lo : 2 ≤ n) (hi : n ≤ 64) (v : Int) :
    signedField v n = if v < -2 ^ (n - 1) ∨ 2 ^ (n - 1) - 1 < v then .error (.fieldOverflow n v)
      else .ok (BitVec.ofInt 16 (v % 2 ^ n)) := by
  by_cases outside : v < -2 ^ (n - 1) ∨ 2 ^ (n - 1) - 1 < v
  · rw [if_pos outside, signedField, packSigned_of_outside lo hi outside, Except.map]
  · rw [if_neg outside, signedField, packSigned_of_inside lo hi (by omega) (by omega), Except.map,
      ← BitVec.ofInt_natCast, (packed_pattern v n).2]

theorem imm5_eq (v : Int) :
    signedField v 5 = if v < -16 ∨ 15 < v then .error (.fieldOverflow 5 v) else .ok (BitVec.ofInt 16 (v % 32)) :=
  signedField_eq (by decide) (by decide) v

theorem offset6_eq (v : Int) :
    signedField v 6 = if v < -32 ∨ 31 < v then .error (.fieldOverflow 6 v) else .ok (BitVec.ofInt 16 (v % 64)) :=
  signedField_eq (by decide) (by decide) v

theorem offset9_eq (v : Int) :
    signedField v 9 = if v < -256 ∨ 255 < v then .error (.fieldOverflow 9 v) else .ok (BitVec.ofInt 16 (v % 512)) :=
  signedField_eq (by decide) (by decide) v

theorem offset11_eq (v : Int) :
    signedField v 11 =
      if v < -1024 ∨ 1023 < v then .error (.fieldOverflow 11 v) else .ok (BitVec.ofInt 16 (v % 2048)) :=
  signedField_eq (by decide) (by decide) v

/-- An encoder goes on after an operand in range, and its word matters only then. -/
theorem checked_bind {outside : Prop} [Decidable outside] {e : Condition} {a : Word}
    {f : Word → Except Condition Word} {g : Except Condition Word} (inside : ¬outside → f a = g) :
    ((if outside then .error e else .ok a) >>= f) = if outside then .error e else g := by
  by_cases h : outside
  · rw [if_pos h, if_pos h]
    rfl
  · rw [if_neg h, if_neg h, ← inside h]
    rfl

/-! ## Joining fields -/

theorem ofInt_shiftLeft (x : Int) (k : Nat) : BitVec.ofInt 16 x <<< k = BitVec.ofInt 16 (x * 2 ^ k) := by
  have power : BitVec.twoPow 16 k = BitVec.ofInt 16 ((2 ^ k : Nat) : Int) := by
    rw [BitVec.ofInt_natCast]
    exact BitVec.eq_of_toNat_eq (by simp)
  rw [BitVec.shiftLeft_eq_mul_twoPow, power, BitVec.ofInt_mul]
  norm_cast

/-- A field joined below the place `2 ^ k`, where the part above is zero, is added to it (R65). -/
theorem ofInt_or_ofInt {x y : Int} (k : Nat) (above : x % 2 ^ k = 0) (nonneg : 0 ≤ y) (below : y < 2 ^ k) :
    BitVec.ofInt 16 x ||| BitVec.ofInt 16 y = BitVec.ofInt 16 (x + y) := by
  obtain ⟨a, rfl⟩ := Int.dvd_of_emod_eq_zero above
  obtain ⟨b, rfl⟩ := Int.eq_ofNat_of_zero_le nonneg
  have apart : BitVec.ofInt 16 (2 ^ k * a) &&& BitVec.ofInt 16 b = 0#16 := by
    rw [mul_comm, ← ofInt_shiftLeft, BitVec.ofInt_natCast]
    ext i hi
    by_cases low : i < k
    · simp [low]
    · have small : b < 2 ^ i :=
        lt_of_lt_of_le (by exact_mod_cast below) (Nat.pow_le_pow_right two_pos (not_lt.mp low))
      simp only [← BitVec.getLsbD_eq_getElem, BitVec.getLsbD_and, BitVec.getLsbD_ofNat,
        Nat.testBit_lt_two_pow small, Bool.and_false, Nat.zero_testBit]
  rw [BitVec.ofInt_add, BitVec.add_eq_or_of_and_eq_zero _ _ apart]

/-- The format of two register fields and a low field of at most six bits (R56). -/
theorem join_two_registers {op r b x : Int} (opcode : op % 4096 = 0) (hr : 0 ≤ r ∧ r ≤ 7)
    (hb : 0 ≤ b ∧ b ≤ 7) (hx : 0 ≤ x ∧ x < 64) :
    BitVec.ofInt 16 op ||| BitVec.ofInt 16 r <<< 9 ||| BitVec.ofInt 16 b <<< 6 ||| BitVec.ofInt 16 x =
      BitVec.ofInt 16 (op + r * 512 + b * 64 + x) := by
  have place9 : BitVec.ofInt 16 r <<< 9 = BitVec.ofInt 16 (r * 512) := ofInt_shiftLeft r 9
  have place6 : BitVec.ofInt 16 b <<< 6 = BitVec.ofInt 16 (b * 64) := ofInt_shiftLeft b 6
  rw [place9, place6, ofInt_or_ofInt 12, ofInt_or_ofInt 9, ofInt_or_ofInt 6] <;> omega

/-- The format of one register field and a low field of nine bits (R56). -/
theorem join_register {op r x : Int} (opcode : op % 4096 = 0) (hr : 0 ≤ r ∧ r ≤ 7) (hx : 0 ≤ x ∧ x < 512) :
    BitVec.ofInt 16 op ||| BitVec.ofInt 16 r <<< 9 ||| BitVec.ofInt 16 x = BitVec.ofInt 16 (op + r * 512 + x) := by
  have place9 : BitVec.ofInt 16 r <<< 9 = BitVec.ofInt 16 (r * 512) := ofInt_shiftLeft r 9
  rw [place9, ofInt_or_ofInt 12, ofInt_or_ofInt 9] <;> omega

/-- The format of one register field at bit 6 and no low field (R56). -/
theorem join_base {op b : Int} (opcode : op % 4096 = 0) (hb : 0 ≤ b ∧ b ≤ 7) :
    BitVec.ofInt 16 op ||| BitVec.ofInt 16 b <<< 6 = BitVec.ofInt 16 (op + b * 64) := by
  have place6 : BitVec.ofInt 16 b <<< 6 = BitVec.ofInt 16 (b * 64) := ofInt_shiftLeft b 6
  rw [place6, ofInt_or_ofInt 12] <;> omega

theorem maskBit_eq (b : Bool) (k : Nat) : maskBit b k = BitVec.ofInt 16 (b.toInt * 2 ^ k) := by
  cases b
  · simp [maskBit]
  · exact ofInt_shiftLeft 1 k

/-! ## The word of each encoder function -/

theorem encOperate_reg {op : Int} (opcode : op % 4096 = 0) (dr sr1 x : Int) :
    encOperate (BitVec.ofInt 16 op) dr sr1 (.reg x) =
      if dr < 0 ∨ 7 < dr then .error (.fieldOverflow 3 dr)
      else if sr1 < 0 ∨ 7 < sr1 then .error (.fieldOverflow 3 sr1)
      else if x < 0 ∨ 7 < x then .error (.fieldOverflow 3 x)
      else .ok (BitVec.ofInt 16 (op + dr * 512 + sr1 * 64 + x)) := by
  simp only [encOperate, reg3_eq]
  refine checked_bind fun hd => checked_bind fun ha => checked_bind fun hx => congrArg Except.ok ?_
  exact join_two_registers opcode (by omega) (by omega) (by omega)

theorem encOperate_imm {op : Int} (opcode : op % 4096 = 0) (dr sr1 x : Int) :
    encOperate (BitVec.ofInt 16 op) dr sr1 (.imm x) =
      if dr < 0 ∨ 7 < dr then .error (.fieldOverflow 3 dr)
      else if sr1 < 0 ∨ 7 < sr1 then .error (.fieldOverflow 3 sr1)
      else if x < -16 ∨ 15 < x then .error (.fieldOverflow 5 x)
      else .ok (BitVec.ofInt 16 (op + 0x20 + dr * 512 + sr1 * 64 + x % 32)) := by
  simp only [encOperate, reg3_eq, imm5_eq]
  refine checked_bind fun hd => checked_bind fun ha => checked_bind fun hx => congrArg Except.ok ?_
  have tag : 0x0020#16 ||| BitVec.ofInt 16 (x % 32) = BitVec.ofInt 16 (0x20 + x % 32) :=
    ofInt_or_ofInt (x := 0x20) 5 (by decide) (by omega) (by omega)
  rw [BitVec.or_assoc, tag, join_two_registers opcode (by omega) (by omega) (by omega)]
  ring_nf

theorem encPC9_eq {op : Int} (opcode : op % 4096 = 0) (r x : Int) :
    encPC9 (BitVec.ofInt 16 op) r x =
      if r < 0 ∨ 7 < r then .error (.fieldOverflow 3 r)
      else if x < -256 ∨ 255 < x then .error (.fieldOverflow 9 x)
      else .ok (BitVec.ofInt 16 (op + r * 512 + x % 512)) := by
  simp only [encPC9, reg3_eq, offset9_eq]
  refine checked_bind fun hr => checked_bind fun hx => congrArg Except.ok ?_
  exact join_register opcode (by omega) (by omega)

theorem encBASE6_eq {op : Int} (opcode : op % 4096 = 0) (r b x : Int) :
    encBASE6 (BitVec.ofInt 16 op) r b x =
      if r < 0 ∨ 7 < r then .error (.fieldOverflow 3 r)
      else if b < 0 ∨ 7 < b then .error (.fieldOverflow 3 b)
      else if x < -32 ∨ 31 < x then .error (.fieldOverflow 6 x)
      else .ok (BitVec.ofInt 16 (op + r * 512 + b * 64 + x % 64)) := by
  simp only [encBASE6, reg3_eq, offset6_eq]
  refine checked_bind fun hr => checked_bind fun hb => checked_bind fun hx => congrArg Except.ok ?_
  exact join_two_registers opcode (by omega) (by omega) (by omega)

theorem encNOT_eq (r b : Int) :
    encNOT r b =
      if r < 0 ∨ 7 < r then .error (.fieldOverflow 3 r)
      else if b < 0 ∨ 7 < b then .error (.fieldOverflow 3 b)
      else .ok (BitVec.ofInt 16 (0x903F + r * 512 + b * 64)) := by
  simp only [encNOT, reg3_eq]
  refine checked_bind fun hr => checked_bind fun hb => congrArg Except.ok ?_
  refine (join_two_registers (op := 0x9000) (x := 0x3F) (by decide) (by omega) (by omega) (by decide)).trans ?_
  ring_nf

theorem encBR_eq (n z p : Bool) (x : Int) :
    encBR n z p x =
      if x < -256 ∨ 255 < x then .error (.fieldOverflow 9 x)
      else .ok (BitVec.ofInt 16 (n.toInt * 2048 + z.toInt * 1024 + p.toInt * 512 + x % 512)) := by
  have bit : ∀ b : Bool, 0 ≤ b.toInt ∧ b.toInt ≤ 1 := by decide
  obtain ⟨hn, hz, hp⟩ := And.intro (bit n) (And.intro (bit z) (bit p))
  simp only [encBR, offset9_eq, maskBit_eq, BitVec.zero_or]
  refine checked_bind fun hx => congrArg Except.ok ?_
  rw [ofInt_or_ofInt 11, ofInt_or_ofInt 10, ofInt_or_ofInt 9]
  · rfl
  all_goals omega

theorem encJMP_eq (b : Int) :
    encJMP b = if b < 0 ∨ 7 < b then .error (.fieldOverflow 3 b) else .ok (BitVec.ofInt 16 (0xC000 + b * 64)) := by
  simp only [encJMP, reg3_eq]
  exact checked_bind fun hb => congrArg Except.ok (join_base (op := 0xC000) (by decide) (by omega))

theorem encJSRR_eq (b : Int) :
    encJSRR b = if b < 0 ∨ 7 < b then .error (.fieldOverflow 3 b) else .ok (BitVec.ofInt 16 (0x4000 + b * 64)) := by
  simp only [encJSRR, reg3_eq]
  exact checked_bind fun hb => congrArg Except.ok (join_base (op := 0x4000) (by decide) (by omega))

theorem encJSR_eq (x : Int) :
    encJSR x =
      if x < -1024 ∨ 1023 < x then .error (.fieldOverflow 11 x) else .ok (BitVec.ofInt 16 (0x4800 + x % 2048)) := by
  simp only [encJSR, offset11_eq]
  refine checked_bind fun hx => congrArg Except.ok ?_
  exact ofInt_or_ofInt (x := 0x4800) 11 (by decide) (by omega) (by omega)

theorem encTRAP_eq (x : Int) :
    encTRAP x = if x < 0 ∨ 255 < x then .error (.fieldOverflow 8 x) else .ok (BitVec.ofInt 16 (0xF000 + x)) := by
  simp only [encTRAP, u8_eq]
  refine checked_bind fun hx => congrArg Except.ok ?_
  exact ofInt_or_ofInt (x := 0xF000) 8 (by decide) (by omega) (by omega)

/-! ## The statements -/

/-- Settles O8: ADD and AND are one encoder at two opcodes. -/
theorem encodeOperateChecksOperandsInOrder : Obligations.EncodeOperateChecksOperandsInOrder := by
  intro dr sr1 x f hf
  simp only [List.mem_cons, List.not_mem_nil, or_false] at hf
  rcases hf with rfl | rfl
  · exact ⟨encOperate_reg (op := 0x1000) (by decide) dr sr1 x, encOperate_imm (op := 0x1000) (by decide) dr sr1 x⟩
  · exact ⟨encOperate_reg (op := 0x5000) (by decide) dr sr1 x, encOperate_imm (op := 0x5000) (by decide) dr sr1 x⟩

/-- Settles O9: the word of each encoder function, those of one format by the lemma of the format. -/
theorem encoderFunctionsOfEachFormat : Obligations.EncoderFunctionsOfEachFormat := by
  intro n z p r b x
  refine ⟨encNOT_eq r b, encBR_eq n z p x, ?_, ?_, ?_, ?_⟩
  all_goals simp only [List.forall_mem_cons, List.not_mem_nil, false_implies, implies_true, and_true]
  · exact ⟨encJMP_eq b, encJSRR_eq b, encJSRR_eq b⟩
  · exact ⟨encJSR_eq x, encJSR_eq x⟩
  · exact ⟨encPC9_eq (op := 0x2000) (by decide) r x, encPC9_eq (op := 0xA000) (by decide) r x,
      encPC9_eq (op := 0xE000) (by decide) r x, encPC9_eq (op := 0x3000) (by decide) r x,
      encPC9_eq (op := 0xB000) (by decide) r x⟩
  · exact ⟨encBASE6_eq (op := 0x6000) (by decide) r b x, encBASE6_eq (op := 0x7000) (by decide) r b x⟩

end Sys2Proof
end

/-! # Encoding (30_encoding.md section 4): TRAP vectors -/

section
namespace Sys2Proof

/-- The vectors without a service lie outside 0x20 to 0x25: the table of R63, compared over the 256 vectors. -/
theorem serviceOf_eq_none : ∀ v : BitVec 8, serviceOf v = none ↔ v.toNat < 0x20 ∨ 0x25 < v.toNat := by
  decide

/-- The decoder's table of vectors is the table of R63, compared over the 256 vectors. -/
theorem decodeTrap_eq_serviceOf : ∀ v : BitVec 8, decodeTrap v = (serviceOf v).getD (.trap v) := by
  decide

/-- Settles O4: the decoder's and the spec's tables of vectors agree, and the range check of R86 is `u8`'s. -/
theorem trapVectorsNameServices : Obligations.TrapVectorsNameServices := by
  refine ⟨fun w opcode => ?_, serviceOf_eq_none, fun _ _ _ => rfl, encTRAP_eq, rfl, rfl, rfl, rfl, rfl, rfl⟩
  rw [decode_of_opcode_trap opcode, decodeTrap_eq_serviceOf]

theorem decodeTrap_wellFormed (v : BitVec 8) : (decodeTrap v).wellFormed = true := by
  by_cases undefined : v.toNat < 0x20 ∨ 0x25 < v.toNat
  · rw [decodeTrap_of_undefined undefined, Instr.wellFormed, isServiceVector]
    grind
  · unfold decodeTrap
    split
    case h_7 => grind
    all_goals rfl

/-- A decoded term is well-formed: only the vector of a `trap` could fail to be (R60, R147). -/
theorem decode_wellFormed (w : Word) : (decode w).wellFormed = true := by
  rw [decode_eq_fields]
  split
  case h_2 | h_5 | h_6 => split <;> rfl
  case h_16 => exact decodeTrap_wellFormed _
  all_goals rfl

end Sys2Proof
end

/-! # Encoding (30_encoding.md sections 3 to 5): the bits that the decoder ignores -/

section
namespace Sys2Proof

/-- Flipping bits outside a field leaves the field. -/
theorem fieldNat_xor {w x m : Word} (inside : x &&& m = x) (hi lo : Nat)
    (outside : (~~~m).extractLsb' lo (hi + 1 - lo) = BitVec.allOnes (hi + 1 - lo)) :
    fieldNat (w ^^^ x) hi lo = fieldNat w hi lo := by
  have kept : (w ^^^ x) &&& ~~~m = w &&& ~~~m := by
    rw [← inside]
    ext i
    simp only [BitVec.getElem_and, BitVec.getElem_xor, BitVec.getElem_not]
    cases m[i] <;> simp
  exact (fieldNat_of_mask kept hi lo outside).trans (fieldNat_of_mask rfl hi lo outside).symm

/-- A word whose opcode and mode bit give it no ignored bits. -/
theorem xor_of_ignores_nothing {w x : Word} (inside : x &&& 0x0000#16 = x) : w ^^^ x = w := by
  rw [← inside, BitVec.and_zero]
  exact BitVec.xor_zero

/-- Settles O3: no field of the decoded term meets the ignored bits of the word's opcode and mode bit. -/
theorem decodeIgnoresUnusedBits : Obligations.DecodeIgnoresUnusedBits := by
  intro w x inside
  unfold ignoredMask at inside
  split at inside
  case h_1 opcode | h_3 opcode =>
    split at inside
    · next mode =>
      have kept := fieldNat_xor (w := w) inside
      simp [decode_eq_fields, fieldReg, opcode, mode, kept 15 12 (by decide), kept 11 9 (by decide),
        kept 8 6 (by decide), kept 5 5 (by decide), kept 2 0 (by decide)]
    · rw [xor_of_ignores_nothing inside]
  case h_2 opcode =>
    split at inside
    · next mode =>
      have kept := fieldNat_xor (w := w) inside
      simp [decode_eq_fields, fieldReg, opcode, mode, kept 15 12 (by decide), kept 11 11 (by decide),
        kept 8 6 (by decide)]
    · rw [xor_of_ignores_nothing inside]
  case h_4 opcode | h_7 opcode =>
    have kept := fieldNat_xor (w := w) inside
    simp [decode_eq_fields, opcode, kept 15 12 (by decide)]
  case h_5 opcode =>
    have kept := fieldNat_xor (w := w) inside
    simp [decode_eq_fields, fieldReg, opcode, kept 15 12 (by decide), kept 11 9 (by decide), kept 8 6 (by decide)]
  case h_6 opcode =>
    have kept := fieldNat_xor (w := w) inside
    simp [decode_eq_fields, fieldReg, opcode, kept 15 12 (by decide), kept 8 6 (by decide)]
  case h_8 opcode =>
    have kept := fieldNat_xor (w := w) inside
    simp [decode_eq_fields, fieldImm, opcode, kept 15 12 (by decide), kept 7 0 (by decide)]
  case h_9 => rw [xor_of_ignores_nothing inside]

end Sys2Proof
end

/-! # Encoding (30_encoding.md section 5): canonical words, and the round trip -/

section
namespace Sys2Proof

/-! ## The canonical word of a term (R65, R67) -/

/-- The number of the word that the encoder gives a term: the opcode and the fields at their places, with the ignored
bits at the encoder's values (R56, R67). A reserved opcode stands with zeros. -/
def Instr.code : Instr → Nat
  | .br n z p off => n.toNat * 2048 + z.toNat * 1024 + p.toNat * 512 + off.toNat
  | .addReg dr sr1 sr2 => 0x1000 + dr.val * 512 + sr1.val * 64 + sr2.val
  | .addImm dr sr1 imm => 0x1020 + dr.val * 512 + sr1.val * 64 + imm.toNat
  | .ld dr off => 0x2000 + dr.val * 512 + off.toNat
  | .st sr off => 0x3000 + sr.val * 512 + off.toNat
  | .jsr off => 0x4800 + off.toNat
  | .jsrr base => 0x4000 + base.val * 64
  | .andReg dr sr1 sr2 => 0x5000 + dr.val * 512 + sr1.val * 64 + sr2.val
  | .andImm dr sr1 imm => 0x5020 + dr.val * 512 + sr1.val * 64 + imm.toNat
  | .ldr dr base off => 0x6000 + dr.val * 512 + base.val * 64 + off.toNat
  | .str sr base off => 0x7000 + sr.val * 512 + base.val * 64 + off.toNat
  | .reserved8 => 0x8000
  | .notReg dr sr => 0x9000 + dr.val * 512 + sr.val * 64 + 0x3F
  | .ldi dr off => 0xA000 + dr.val * 512 + off.toNat
  | .sti sr off => 0xB000 + sr.val * 512 + off.toNat
  | .jmp base => 0xC000 + base.val * 64
  | .reservedD => 0xD000
  | .lea dr off => 0xE000 + dr.val * 512 + off.toNat
  | .trapGetc => 0xF020
  | .trapOut => 0xF021
  | .trapPuts => 0xF022
  | .trapIn => 0xF023
  | .trapPutsp => 0xF024
  | .trapHalt => 0xF025
  | .trap v => 0xF000 + v.toNat

theorem Instr.code_lt (i : Instr) : i.code < 65536 := by
  cases i with
  | br n z p off =>
    obtain ⟨hn, hz, hp⟩ := And.intro (Bool.toNat_le n) (And.intro (Bool.toNat_le z) (Bool.toNat_le p))
    rw [Instr.code]
    omega
  | _ =>
    rw [Instr.code]
    omega

/-! ## The encoder gives it -/

/-- The signed reading of a field passes the encoder's range check (R66). -/
theorem toInt_inside {n : Nat} (x : BitVec n) : ¬(x.toInt < -2 ^ (n - 1) ∨ 2 ^ (n - 1) - 1 < x.toInt) := by
  have lo := BitVec.le_toInt x
  have hi := BitVec.toInt_lt (x := x)
  omega

/-- The signed reading of a pattern is the pattern modulo `2 ^ n` (R53). -/
theorem toInt_emod {n : Nat} (x : BitVec n) : x.toInt % (2 ^ n : Nat) = x.toNat := by
  have pattern := BitVec.toNat_ofInt (n := n) x.toInt
  have nonneg := Int.emod_nonneg x.toInt (b := (2 ^ n : Nat)) (by positivity)
  rw [BitVec.ofInt_toInt] at pattern
  omega

/-! Both facts with the numbers that the encoder functions hold, at each width of R57. -/

theorem imm5_toInt (imm : BitVec 5) :
    ¬(imm.toInt < -16 ∨ 15 < imm.toInt) ∧ imm.toInt % 32 = imm.toNat :=
  ⟨toInt_inside imm, toInt_emod imm⟩

theorem offset6_toInt (off : BitVec 6) :
    ¬(off.toInt < -32 ∨ 31 < off.toInt) ∧ off.toInt % 64 = off.toNat :=
  ⟨toInt_inside off, toInt_emod off⟩

theorem offset9_toInt (off : BitVec 9) :
    ¬(off.toInt < -256 ∨ 255 < off.toInt) ∧ off.toInt % 512 = off.toNat :=
  ⟨toInt_inside off, toInt_emod off⟩

theorem offset11_toInt (off : BitVec 11) :
    ¬(off.toInt < -1024 ∨ 1023 < off.toInt) ∧ off.toInt % 2048 = off.toNat :=
  ⟨toInt_inside off, toInt_emod off⟩

theorem reg_inside (r : Reg) : ¬((r.val : Int) < 0 ∨ 7 < (r.val : Int)) := by omega

theorem toOption_of_ok {e : Except Condition Word} {x : Int} {code : Nat} (word : e = .ok (BitVec.ofInt 16 x))
    (sum : x = code) : e.toOption = some (BitVec.ofNat 16 code) := by
  rw [word, sum, BitVec.ofInt_natCast]
  rfl

section encoded
variable {op : Nat} (opcode : op % 4096 = 0)
include opcode

theorem encOperate_reg_fields (dr sr1 sr2 : Reg) :
    (encOperate (BitVec.ofNat 16 op) dr.val sr1.val (.reg sr2.val)).toOption =
      some (BitVec.ofNat 16 (op + dr.val * 512 + sr1.val * 64 + sr2.val)) := by
  have word := encOperate_reg (op := op) (by omega) dr.val sr1.val sr2.val
  rw [if_neg (reg_inside dr), if_neg (reg_inside sr1), if_neg (reg_inside sr2)] at word
  exact toOption_of_ok word (by push_cast; rfl)

theorem encOperate_imm_fields (dr sr1 : Reg) (imm : BitVec 5) :
    (encOperate (BitVec.ofNat 16 op) dr.val sr1.val (.imm imm.toInt)).toOption =
      some (BitVec.ofNat 16 (op + 0x20 + dr.val * 512 + sr1.val * 64 + imm.toNat)) := by
  have word := encOperate_imm (op := op) (by omega) dr.val sr1.val imm.toInt
  rw [if_neg (reg_inside dr), if_neg (reg_inside sr1), if_neg (imm5_toInt imm).1, (imm5_toInt imm).2] at word
  exact toOption_of_ok word (by push_cast; rfl)

theorem encPC9_fields (r : Reg) (off : BitVec 9) :
    (encPC9 (BitVec.ofNat 16 op) r.val off.toInt).toOption =
      some (BitVec.ofNat 16 (op + r.val * 512 + off.toNat)) := by
  have word := encPC9_eq (op := op) (by omega) r.val off.toInt
  rw [if_neg (reg_inside r), if_neg (offset9_toInt off).1, (offset9_toInt off).2] at word
  exact toOption_of_ok word (by push_cast; rfl)

theorem encBASE6_fields (r base : Reg) (off : BitVec 6) :
    (encBASE6 (BitVec.ofNat 16 op) r.val base.val off.toInt).toOption =
      some (BitVec.ofNat 16 (op + r.val * 512 + base.val * 64 + off.toNat)) := by
  have word := encBASE6_eq (op := op) (by omega) r.val base.val off.toInt
  rw [if_neg (reg_inside r), if_neg (reg_inside base), if_neg (offset6_toInt off).1, (offset6_toInt off).2] at word
  exact toOption_of_ok word (by push_cast; rfl)

end encoded

theorem encBR_fields (n z p : Bool) (off : BitVec 9) :
    (encBR n z p off.toInt).toOption = some (BitVec.ofNat 16 (Instr.br n z p off).code) := by
  have word := encBR_eq n z p off.toInt
  have bit : ∀ b : Bool, b.toInt = b.toNat := by decide
  rw [if_neg (offset9_toInt off).1, (offset9_toInt off).2, bit, bit, bit] at word
  exact toOption_of_ok word (by rw [Instr.code]; push_cast; rfl)

theorem encNOT_fields (dr sr : Reg) :
    (encNOT dr.val sr.val).toOption = some (BitVec.ofNat 16 (Instr.notReg dr sr).code) := by
  have word := encNOT_eq dr.val sr.val
  rw [if_neg (reg_inside dr), if_neg (reg_inside sr)] at word
  exact toOption_of_ok word (by rw [Instr.code]; push_cast; ring)

theorem encJMP_fields (base : Reg) : (encJMP base.val).toOption = some (BitVec.ofNat 16 (Instr.jmp base).code) := by
  have word := encJMP_eq base.val
  rw [if_neg (reg_inside base)] at word
  exact toOption_of_ok word (by rw [Instr.code]; push_cast; rfl)

theorem encJSRR_fields (base : Reg) : (encJSRR base.val).toOption = some (BitVec.ofNat 16 (Instr.jsrr base).code) := by
  have word := encJSRR_eq base.val
  rw [if_neg (reg_inside base)] at word
  exact toOption_of_ok word (by rw [Instr.code]; push_cast; rfl)

theorem encJSR_fields (off : BitVec 11) :
    (encJSR off.toInt).toOption = some (BitVec.ofNat 16 (Instr.jsr off).code) := by
  have word := encJSR_eq off.toInt
  rw [if_neg (offset11_toInt off).1, (offset11_toInt off).2] at word
  exact toOption_of_ok word (by rw [Instr.code]; push_cast; rfl)

/-- `encTRAP` takes the vector of every byte (R86). -/
theorem encTRAP_byte (v : BitVec 8) : encTRAP v.toNat = .ok (BitVec.ofNat 16 (0xF000 + v.toNat)) := by
  rw [encTRAP_eq, if_neg (by omega), ← BitVec.ofInt_natCast]
  push_cast
  rfl

/-- Every term with an encoder function encodes to its canonical word (R65, R67). -/
theorem encode_eq_code {i : Instr} (encodes : i.isReserved = false) : encode i = some (BitVec.ofNat 16 i.code) := by
  cases i with
  | br n z p off => exact encBR_fields n z p off
  | addReg dr sr1 sr2 => exact encOperate_reg_fields (op := 0x1000) rfl dr sr1 sr2
  | addImm dr sr1 imm => exact encOperate_imm_fields (op := 0x1000) rfl dr sr1 imm
  | andReg dr sr1 sr2 => exact encOperate_reg_fields (op := 0x5000) rfl dr sr1 sr2
  | andImm dr sr1 imm => exact encOperate_imm_fields (op := 0x5000) rfl dr sr1 imm
  | notReg dr sr => exact encNOT_fields dr sr
  | ld dr off => exact encPC9_fields (op := 0x2000) rfl dr off
  | ldi dr off => exact encPC9_fields (op := 0xA000) rfl dr off
  | lea dr off => exact encPC9_fields (op := 0xE000) rfl dr off
  | st sr off => exact encPC9_fields (op := 0x3000) rfl sr off
  | sti sr off => exact encPC9_fields (op := 0xB000) rfl sr off
  | ldr dr base off => exact encBASE6_fields (op := 0x6000) rfl dr base off
  | str sr base off => exact encBASE6_fields (op := 0x7000) rfl sr base off
  | jmp base => exact encJMP_fields base
  | jsr off => exact encJSR_fields off
  | jsrr base => exact encJSRR_fields base
  | trapGetc | trapOut | trapPuts | trapIn | trapPutsp | trapHalt => rfl
  | trap v => exact congrArg Except.toOption (encTRAP_byte v)
  | reserved8 | reservedD => cases encodes

/-! ## The decoder takes it back -/

theorem fieldNat_ofNat {code : Nat} (fits : code < 65536) (hi lo : Nat) :
    fieldNat (BitVec.ofNat 16 code) hi lo = code / 2 ^ lo % 2 ^ (hi + 1 - lo) := by
  rw [fieldNat, BitVec.toNat_ofNat, Nat.mod_eq_of_lt fits]

theorem fieldReg_eq {w : Word} {hi lo : Nat} {r : Reg} (field : fieldNat w hi lo = r.val) : fieldReg w hi lo = r := by
  rw [fieldReg, field]
  exact Fin.ext (Nat.mod_eq_of_lt r.isLt)

theorem fieldImm_eq {w : Word} {n : Nat} {x : BitVec n} (field : fieldNat w (n - 1) 0 = x.toNat) :
    fieldImm w n = x := by
  rw [fieldImm, field, BitVec.ofNat_toNat, BitVec.setWidth_eq]

/-! The fields of a word that is the sum of a format's fields, with the opcode `op` (R56). -/

section decoded
variable {code op : Nat} (hop : op < 16)
include hop

theorem operate_reg_fields {dr sr1 sr2 : Reg}
    (sum : code = op * 4096 + dr.val * 512 + sr1.val * 64 + sr2.val) :
    fieldNat (BitVec.ofNat 16 code) 15 12 = op ∧ fieldNat (BitVec.ofNat 16 code) 5 5 = 0 ∧
      fieldReg (BitVec.ofNat 16 code) 11 9 = dr ∧ fieldReg (BitVec.ofNat 16 code) 8 6 = sr1 ∧
      fieldReg (BitVec.ofNat 16 code) 2 0 = sr2 := by
  have fits : code < 65536 := by omega
  refine ⟨?_, ?_, fieldReg_eq ?_, fieldReg_eq ?_, fieldReg_eq ?_⟩ <;> rw [fieldNat_ofNat fits] <;> omega

theorem operate_imm_fields {dr sr1 : Reg} {imm : BitVec 5}
    (sum : code = op * 4096 + 0x20 + dr.val * 512 + sr1.val * 64 + imm.toNat) :
    fieldNat (BitVec.ofNat 16 code) 15 12 = op ∧ fieldNat (BitVec.ofNat 16 code) 5 5 = 1 ∧
      fieldReg (BitVec.ofNat 16 code) 11 9 = dr ∧ fieldReg (BitVec.ofNat 16 code) 8 6 = sr1 ∧
      fieldImm (BitVec.ofNat 16 code) 5 = imm := by
  have fits : code < 65536 := by omega
  refine ⟨?_, ?_, fieldReg_eq ?_, fieldReg_eq ?_, fieldImm_eq ?_⟩ <;> rw [fieldNat_ofNat fits] <;> omega

theorem pc9_fields {r : Reg} {off : BitVec 9} (sum : code = op * 4096 + r.val * 512 + off.toNat) :
    fieldNat (BitVec.ofNat 16 code) 15 12 = op ∧ fieldReg (BitVec.ofNat 16 code) 11 9 = r ∧
      fieldImm (BitVec.ofNat 16 code) 9 = off := by
  have fits : code < 65536 := by omega
  refine ⟨?_, fieldReg_eq ?_, fieldImm_eq ?_⟩ <;> rw [fieldNat_ofNat fits] <;> omega

theorem base6_fields {r base : Reg} {off : BitVec 6}
    (sum : code = op * 4096 + r.val * 512 + base.val * 64 + off.toNat) :
    fieldNat (BitVec.ofNat 16 code) 15 12 = op ∧ fieldReg (BitVec.ofNat 16 code) 11 9 = r ∧
      fieldReg (BitVec.ofNat 16 code) 8 6 = base ∧ fieldImm (BitVec.ofNat 16 code) 6 = off := by
  have fits : code < 65536 := by omega
  refine ⟨?_, fieldReg_eq ?_, fieldReg_eq ?_, fieldImm_eq ?_⟩ <;> rw [fieldNat_ofNat fits] <;> omega

theorem base_fields {base : Reg} (sum : code = op * 4096 + base.val * 64) :
    fieldNat (BitVec.ofNat 16 code) 15 12 = op ∧ fieldNat (BitVec.ofNat 16 code) 11 11 = 0 ∧
      fieldReg (BitVec.ofNat 16 code) 8 6 = base := by
  have fits : code < 65536 := by omega
  refine ⟨?_, ?_, fieldReg_eq ?_⟩ <;> rw [fieldNat_ofNat fits] <;> omega

end decoded

theorem br_fields {n z p : Bool} {off : BitVec 9} :
    let w := BitVec.ofNat 16 (Instr.br n z p off).code
    fieldNat w 15 12 = 0x0 ∧ fieldNat w 11 11 = n.toNat ∧ fieldNat w 10 10 = z.toNat ∧
      fieldNat w 9 9 = p.toNat ∧ fieldImm w 9 = off := by
  obtain ⟨hn, hz, hp⟩ := And.intro (Bool.toNat_le n) (And.intro (Bool.toNat_le z) (Bool.toNat_le p))
  refine ⟨?_, ?_, ?_, ?_, fieldImm_eq ?_⟩ <;> rw [fieldNat_ofNat (Instr.code_lt _), Instr.code] <;> omega

theorem jsr_fields {off : BitVec 11} :
    let w := BitVec.ofNat 16 (Instr.jsr off).code
    fieldNat w 15 12 = 0x4 ∧ fieldNat w 11 11 = 1 ∧ fieldImm w 11 = off := by
  refine ⟨?_, ?_, fieldImm_eq ?_⟩ <;> rw [fieldNat_ofNat (Instr.code_lt _), Instr.code] <;> omega

theorem trap_fields {v : BitVec 8} :
    let w := BitVec.ofNat 16 (0xF000 + v.toNat)
    fieldNat w 15 12 = 0xF ∧ fieldImm w 8 = v := by
  have fits : 0xF000 + v.toNat < 65536 := by omega
  refine ⟨?_, fieldImm_eq ?_⟩ <;> rw [fieldNat_ofNat fits] <;> omega

/-- Every well-formed term is the decoding of its canonical word (R60, R69). -/
theorem decode_code {i : Instr} (wf : i.wellFormed = true) : decode (BitVec.ofNat 16 i.code) = i := by
  cases i with
  | br n z p off =>
    obtain ⟨opcode, n1, z1, p1, o⟩ := br_fields (n := n) (z := z) (p := p) (off := off)
    rw [decode_of_opcode_br opcode, n1, z1, p1, o]
    simp
  | addReg dr sr1 sr2 =>
    obtain ⟨opcode, mode, d, a, b⟩ :=
      operate_reg_fields (op := 0x1) (by decide) (Eq.refl (Instr.addReg dr sr1 sr2).code)
    rw [decode_of_opcode_add opcode, mode, d, a, b]
    rfl
  | addImm dr sr1 imm =>
    obtain ⟨opcode, mode, d, a, b⟩ :=
      operate_imm_fields (op := 0x1) (by decide) (Eq.refl (Instr.addImm dr sr1 imm).code)
    rw [decode_of_opcode_add opcode, mode, d, a, b]
    rfl
  | andReg dr sr1 sr2 =>
    obtain ⟨opcode, mode, d, a, b⟩ :=
      operate_reg_fields (op := 0x5) (by decide) (Eq.refl (Instr.andReg dr sr1 sr2).code)
    rw [decode_of_opcode_and opcode, mode, d, a, b]
    rfl
  | andImm dr sr1 imm =>
    obtain ⟨opcode, mode, d, a, b⟩ :=
      operate_imm_fields (op := 0x5) (by decide) (Eq.refl (Instr.andImm dr sr1 imm).code)
    rw [decode_of_opcode_and opcode, mode, d, a, b]
    rfl
  | notReg dr sr =>
    obtain ⟨opcode, d, a, -⟩ :=
      base6_fields (op := 0x9) (off := 0x3F#6) (by decide) (Eq.refl (Instr.notReg dr sr).code)
    rw [decode_of_opcode_not opcode, d, a]
  | ld dr off =>
    obtain ⟨opcode, d, o⟩ := pc9_fields (op := 0x2) (by decide) (Eq.refl (Instr.ld dr off).code)
    rw [decode_eq_fields, opcode, d, o]
    rfl
  | ldi dr off =>
    obtain ⟨opcode, d, o⟩ := pc9_fields (op := 0xA) (by decide) (Eq.refl (Instr.ldi dr off).code)
    rw [decode_eq_fields, opcode, d, o]
    rfl
  | lea dr off =>
    obtain ⟨opcode, d, o⟩ := pc9_fields (op := 0xE) (by decide) (Eq.refl (Instr.lea dr off).code)
    rw [decode_eq_fields, opcode, d, o]
    rfl
  | st sr off =>
    obtain ⟨opcode, d, o⟩ := pc9_fields (op := 0x3) (by decide) (Eq.refl (Instr.st sr off).code)
    rw [decode_eq_fields, opcode, d, o]
    rfl
  | sti sr off =>
    obtain ⟨opcode, d, o⟩ := pc9_fields (op := 0xB) (by decide) (Eq.refl (Instr.sti sr off).code)
    rw [decode_eq_fields, opcode, d, o]
    rfl
  | ldr dr base off =>
    obtain ⟨opcode, d, a, o⟩ := base6_fields (op := 0x6) (by decide) (Eq.refl (Instr.ldr dr base off).code)
    rw [decode_eq_fields, opcode, d, a, o]
    rfl
  | str sr base off =>
    obtain ⟨opcode, d, a, o⟩ := base6_fields (op := 0x7) (by decide) (Eq.refl (Instr.str sr base off).code)
    rw [decode_eq_fields, opcode, d, a, o]
    rfl
  | jmp base =>
    obtain ⟨opcode, -, b⟩ := base_fields (op := 0xC) (by decide) (Eq.refl (Instr.jmp base).code)
    rw [decode_of_opcode_jmp opcode, b]
  | jsrr base =>
    obtain ⟨opcode, mode, b⟩ := base_fields (op := 0x4) (by decide) (Eq.refl (Instr.jsrr base).code)
    rw [decode_of_opcode_jumpSub opcode, mode, b]
    rfl
  | jsr off =>
    obtain ⟨opcode, mode, o⟩ := jsr_fields (off := off)
    rw [decode_of_opcode_jumpSub opcode, mode, o]
    rfl
  | trapGetc | trapOut | trapPuts | trapIn | trapPutsp | trapHalt | reserved8 | reservedD => decide
  | trap v =>
    obtain ⟨opcode, vector⟩ := trap_fields (v := v)
    have undefined : v.toNat < 0x20 ∨ 0x25 < v.toNat := by
      rw [Instr.wellFormed, isServiceVector] at wf
      grind
    rw [Instr.code, decode_of_opcode_trap opcode, vector, decodeTrap_of_undefined undefined]

/-- Settles O5: the decoder gives well-formed terms only, and gives each of them for its canonical word. -/
theorem decodeIsOntoWellFormed : Obligations.DecodeIsOntoWellFormed :=
  ⟨decode_wellFormed, fun _ wf => ⟨_, decode_code wf⟩⟩

/-! ## Which words are canonical (R67) -/

/-- A word under the mask of one field holds that field alone. -/
theorem and_fieldMask (w : Word) (hi lo : Nat) :
    w &&& BitVec.ofNat 16 ((2 ^ (hi + 1 - lo) - 1) * 2 ^ lo) = BitVec.ofNat 16 (fieldNat w hi lo * 2 ^ lo) := by
  ext i below
  simp only [← BitVec.getLsbD_eq_getElem, BitVec.getLsbD_and, BitVec.getLsbD_ofNat, Nat.testBit_mul_two_pow, fieldNat,
    Nat.testBit_mod_two_pow, Nat.testBit_div_two_pow, Nat.testBit_two_pow_sub_one]
  by_cases above : lo ≤ i
  · simp [above, below, BitVec.getLsbD, Nat.sub_add_cancel above, Bool.and_comm]
  · simp [above]

theorem fieldNat_shifted_lt (w : Word) (hi lo : Nat) : fieldNat w hi lo * 2 ^ lo < 65536 :=
  calc fieldNat w hi lo * 2 ^ lo ≤ w.toNat / 2 ^ lo * 2 ^ lo := Nat.mul_le_mul_right _ (Nat.mod_le _ _)
    _ ≤ w.toNat := Nat.div_mul_le_self _ _
    _ < 65536 := w.isLt

/-- The word under the mask of one field tells the field. -/
theorem and_fieldMask_eq {w m c : Word} (hi lo v : Nat)
    (mask : m = BitVec.ofNat 16 ((2 ^ (hi + 1 - lo) - 1) * 2 ^ lo)) (value : c.toNat = v * 2 ^ lo) :
    w &&& m = c ↔ fieldNat w hi lo = v := by
  rw [mask, and_fieldMask, ← BitVec.toNat_inj, BitVec.toNat_ofNat, Nat.mod_eq_of_lt (fieldNat_shifted_lt w hi lo),
    value]
  exact Nat.mul_left_inj (by positivity)

theorem and_fieldMask_eq_zero {w m : Word} (hi lo : Nat)
    (mask : m = BitVec.ofNat 16 ((2 ^ (hi + 1 - lo) - 1) * 2 ^ lo)) : w &&& m = 0x0000#16 ↔ fieldNat w hi lo = 0 :=
  and_fieldMask_eq hi lo 0 mask (Nat.zero_mul _).symm

/-- A word under the masks of two fields is zero when both fields are. -/
theorem and_or_eq_zero {w m n : Word} :
    w &&& (m ||| n) = 0x0000#16 ↔ w &&& m = 0x0000#16 ∧ w &&& n = 0x0000#16 := by
  rw [BitVec.and_comm, BitVec.and_or_distrib_right, BitVec.or_eq_zero_iff, BitVec.and_comm m, BitVec.and_comm n]

theorem fieldReg_val (w : Word) (hi lo : Nat) : (fieldReg w hi lo).val = fieldNat w hi lo % 8 := rfl

theorem fieldImm_toNat (w : Word) (n : Nat) : (fieldImm w n).toNat = fieldNat w (n - 1) 0 % 2 ^ n :=
  BitVec.toNat_ofNat _ _

theorem toNat_fieldBit (w : Word) (i : Nat) : (decide (fieldNat w i i = 1)).toNat = fieldNat w i i := by
  have bit : fieldNat w i i < 2 := by
    rw [fieldNat, Nat.add_sub_cancel_left]
    exact Nat.mod_lt _ two_pos
  interval_cases fieldNat w i i <;> rfl

theorem code_decodeTrap (v : BitVec 8) : (decodeTrap v).code = 0xF000 + v.toNat := by
  unfold decodeTrap
  split
  case h_7 => rfl
  all_goals next vector => rw [vector]; rfl

/-- A one-bit field that is not 1 is 0. -/
theorem fieldBit_eq_zero {w : Word} {i : Nat} (clear : fieldNat w i i ≠ 1) : fieldNat w i i = 0 := by
  have bit := Bool.toNat_le (decide (fieldNat w i i = 1))
  rw [toNat_fieldBit] at bit
  omega

/-- The canonical word of a word's term is the word exactly when its ignored bits are canonical (R67, R69). -/
theorem code_decode (w : Word) : (decode w).code = w.toNat ↔ w &&& ignoredMask w = canonicalIgnored w := by
  have range := w.isLt
  have small : fieldNat w 15 12 < 16 := Nat.mod_lt _ (by decide)
  unfold canonicalIgnored ignoredMask
  rw [decode_eq_fields]
  split
  case h_1 opcode | h_3 opcode | h_4 opcode | h_7 opcode | h_8 opcode | h_11 opcode | h_12 opcode | h_15 opcode =>
    simp only [opcode]
    refine iff_of_true ?_ BitVec.and_zero
    simp only [Instr.code, toNat_fieldBit, fieldReg_val, fieldImm_toNat]
    simp only [fieldNat] at *
    omega
  case h_2 opcode | h_6 opcode =>
    simp only [opcode]
    by_cases mode : fieldNat w 5 5 = 1
    · rw [if_pos mode, if_neg (by omega)]
      refine iff_of_true ?_ BitVec.and_zero
      simp only [Instr.code, fieldReg_val, fieldImm_toNat, fieldNat] at *
      omega
    · have clear := fieldBit_eq_zero mode
      rw [if_neg mode, if_pos clear]
      refine Iff.trans ?_ (and_fieldMask_eq_zero 4 3 rfl).symm
      simp only [Instr.code, fieldReg_val, fieldNat] at *
      omega
  case h_5 opcode =>
    simp only [opcode]
    by_cases mode : fieldNat w 11 11 = 1
    · rw [if_pos mode, if_neg (by omega)]
      refine iff_of_true ?_ BitVec.and_zero
      simp only [Instr.code, fieldImm_toNat, fieldNat] at *
      omega
    · have clear := fieldBit_eq_zero mode
      rw [if_neg mode, if_pos clear]
      refine Iff.trans ?_ (and_or_eq_zero (m := 0x0600#16) (n := 0x003F#16)).symm
      rw [and_fieldMask_eq_zero (m := 0x0600#16) 10 9 rfl, and_fieldMask_eq_zero (m := 0x003F#16) 5 0 rfl]
      simp only [Instr.code, fieldReg_val, fieldNat] at *
      omega
  case h_9 opcode | h_14 opcode =>
    simp only [opcode]
    refine Iff.trans ?_ (and_fieldMask_eq_zero 11 0 rfl).symm
    simp only [Instr.code, fieldNat] at *
    omega
  case h_10 opcode =>
    simp only [opcode]
    refine Iff.trans ?_ (and_fieldMask_eq 5 0 0x3F (by decide) rfl).symm
    simp only [Instr.code, fieldReg_val, fieldNat] at *
    omega
  case h_13 opcode =>
    simp only [opcode]
    refine Iff.trans ?_ (and_or_eq_zero (m := 0x0E00#16) (n := 0x003F#16)).symm
    rw [and_fieldMask_eq_zero (m := 0x0E00#16) 11 9 rfl, and_fieldMask_eq_zero (m := 0x003F#16) 5 0 rfl]
    simp only [Instr.code, fieldReg_val, fieldNat] at *
    omega
  case h_16 =>
    have opcode : fieldNat w 15 12 = 0xF := by grind
    simp only [opcode]
    refine Iff.trans ?_ (and_fieldMask_eq_zero 11 8 rfl).symm
    rw [code_decodeTrap, fieldImm_toNat]
    simp only [fieldNat] at *
    omega

/-! ## The statement -/

/-- Settles O2: encoding gives the canonical word of the term, which decodes to the term, and a word is the canonical
word of its term exactly when its ignored bits are canonical. -/
theorem decodeEncodeRoundTrip : Obligations.DecodeEncodeRoundTrip := by
  refine ⟨fun i wf encodes => ⟨_, encode_eq_code encodes, decode_code wf⟩, fun v => ⟨_, encTRAP_byte v, ?_⟩,
    fun w encodes => ?_⟩
  · obtain ⟨opcode, vector⟩ := trap_fields (v := v)
    rw [decode_of_opcode_trap opcode, vector, decodeTrap_eq_serviceOf]
  · rw [encode_eq_code encodes, Option.some.injEq, ← code_decode, ← BitVec.toNat_inj, BitVec.toNat_ofNat,
      Nat.mod_eq_of_lt (decode w).code_lt]

end Sys2Proof
end

/-! # The instruction cycle (30_encoding.md section 7): step enable, step cap, fetch, and the ends of an instruction -/

section
namespace Sys2Proof.Machine

/-! ## What a step does in each state (R93 to R96) -/

/-- From any run state but Running with no pending read the step is refused (R93). -/
theorem step_of_disabled {s : State} (disabled : s.runState ≠ .running none) : ∃ r, step s = .refused r := by
  cases refusal : s.stepRefusal with
  | none => exact absurd (State.stepRefusal_eq_none.mp refusal) disabled
  | some r => exact ⟨r, by rw [step, refusal]⟩

theorem step_of_capReached {s : State} (running : s.runState = .running none) (cap : s.capReached = true) :
    step s = .next (s.raise .stepLimit) := by
  rw [step, State.stepRefusal_eq_none.mpr running]
  exact if_pos cap

/-- Below the cap a step is its fetch and what follows it (R95, R96). -/
theorem step_of_belowCap {s : State} (running : s.runState = .running none) (below : s.BelowCap) :
    step s =
      if uval s.pc < s.memWords then exec (decode (s.mem.read (uval s.pc))) s.advancePc
      else .next (s.advancePc.raise (.badOpcode none)) := by
  rw [step, State.stepRefusal_eq_none.mpr running, State.capReached_eq_false.mpr below, State.fetch]
  by_cases cell : uval s.pc < s.memWords <;> simp [cell]

/-- Settles O10: below the cap, a fetch that finds a cell leads to `exec` of the cell's term. -/
theorem stepRunsDecodedInstruction : Obligations.StepRunsDecodedInstruction := by
  rintro s i running below cell rfl -
  rw [step_of_belowCap running below, if_pos cell, State.advancePc]

/-- Settles O11: no instruction is refused, so only the step enable refuses. -/
theorem stepRefusedUnlessEnabled : Obligations.StepRefusedUnlessEnabled :=
  fun _ => ⟨fun ⟨r, refused⟩ running => step_ne_refused running r refused, step_of_disabled⟩

/-- Settles O12: the cap is tested before the fetch, and raising StepLimit is all that follows. -/
theorem stepCapHalts : Obligations.StepCapHalts :=
  fun _ limit running capped reached =>
    step_of_capReached running (State.capReached_eq_true.mpr ⟨limit, capped, reached⟩)

/-- Settles O13: the wrapped and the unwrapped increment, and the two outcomes of the fetch. -/
theorem fetchIncrementsAndChecksCell : Obligations.FetchIncrementsAndChecksCell := by
  refine ⟨fun a => ⟨uval_add_ofNat a 1, seqOf_add_one a⟩,
    fun s running below => ⟨fun noCell => ?_, fun cell => ?_⟩⟩
  · rw [step_of_belowCap running below, if_neg (not_lt.mpr noCell)]
    rfl
  · rw [step_of_belowCap running below, if_pos cell, State.advancePc]

/-! ## The ends of an instruction (R96, R97) -/

/-- A retire in the Running state `u` that an instruction leads to from `s`: one more step, the same error, and the
core goes on or halts at the end of memory (R97). -/
theorem State.retire_completes {s u : State} (steps : u.steps = s.steps) (error : u.error = s.error)
    (running : u.runState = .running none) (npc : Nat) :
    (u.retire npc).steps = s.steps + 1 ∧ (u.retire npc).error = s.error ∧
      ((u.retire npc).runState = .running none ∨ (u.retire npc).runState = .halted .endOfMemory) :=
  ⟨by rw [State.steps_retire, steps], (State.error_retire u npc).trans error,
    State.retire_running_or_ended running npc⟩

/-- Settles O44: each effect of an instruction ends in one of the four ways. -/
theorem executionEndsInFourWays : Obligations.ExecutionEndsInFourWays := by
  intro i s t running next
  cases exec_effect next with
  | result =>
    rw [← State.writeResult_retireSeq]
    refine .inl (State.retire_completes ?_ ?_ ?_ _)
    exacts [rfl, rfl, running]
  | branch | noBranch | jump | call | callReg | store | output | getcRead | inRead =>
    refine .inl (State.retire_completes ?_ ?_ ?_ _)
    exacts [rfl, rfl, running]
  | raise => exact .inr (.inl ⟨_, rfl⟩)
  | halt => exact .inr (.inr (.inl ⟨rfl, rfl⟩))
  | getcSuspend queue => exact .inr (.inr (.inr ⟨queue, queue, rfl, .inl ⟨rfl, rfl⟩⟩))
  | inSuspend queue => exact .inr (.inr (.inr ⟨queue, queue, rfl, .inr ⟨rfl, rfl⟩⟩))

/-- Settles O53: by the invariant the recorded error is the cause of the halt, so the fetch found no cell, which the
invariant allows only at the first fetch of a run. -/
theorem invalidFetchOnlyAtRunStart : Obligations.InvalidFetchOnlyAtRunStart := by
  intro s t inv stepped error
  have halted : t.runState = .halted (.condition (.badOpcode none)) := by
    have notIdle : t.runState ≠ .idle := State.call_ne_idle (c := .step) stepped
    exact ((stepKeepsInvariant s t inv stepped).errorIsCause.resolve_left notIdle _).mp error
  have noCell : s.memWords ≤ uval s.pc := conditionsHaveTheirCause s t _ stepped halted
  obtain cell | ⟨first, origin⟩ := inv.nextFetch (step_next stepped).1
  · exact absurd cell (not_lt.mpr noCell)
  · rw [origin] at noCell
    exact ⟨first, origin, noCell⟩

end Sys2Proof.Machine
end
